-- ==== Sys2Proof/Word.lean ====
section
/-!
DEFINITION. The words of the machine: a memory cell and a register are 8 bits (R4, R11, R20), the program
counter is 9 bits (R4, R14). No value is ever read as signed (R5).
-/

namespace Sys2Proof

/-- A memory cell, a register, an opcode byte or an operand byte: 8 bits, unsigned (R5; `CELL` and `XLEN` of R4). -/
abbrev Byte := BitVec 8

/-- The program counter: `PCW` = 9 bits, of which the values 0 to 256 are in use (R4, R14, R16). -/
abbrev Pc := BitVec 9

end Sys2Proof
end

