-- ==== Sys2Proof/Config.lean ====
section
/-!
DEFINITION. The parameters of the machine (R4) and the types of what is fixed before a run: the nine
instruction identities, the four formats and the opcode map `ENC` (R55, R56), which the spec leaves open as a
configuration parameter (D3). The spec's default map is `Sys2Proof.defaultEnc` in Decode.lean.
-/

namespace Sys2Proof

namespace Config

/-- Memory capacity in cells (`N`, R4). -/
@[simp] abbrev N : Nat := 256

/-- Number of general registers (`NREG`, R4). -/
@[simp] abbrev NREG : Nat := 8

/-- Index of the stack-pointer register (`SPI`, R4, R12). -/
@[simp] abbrev SPI : Fin 8 := 7

end Config

/-- The nine instruction identities the decoder answers with (R55, R72); the keys of the opcode map. -/
inductive Op where
  | halt | loadImmediate | printRegister | add | multiply | push | pop | call | ret
  deriving DecidableEq, Repr

/-- The four formats of the table "Formats (rule R53)". -/
inductive Format where
  /-- Opcode byte alone. -/
  | Z
  /-- Opcode byte, register index. -/
  | R
  /-- Opcode byte, register index, immediate. -/
  | RI
  /-- Opcode byte, register index, register index. -/
  | RR
  deriving DecidableEq, Repr

/-- The opcode map `ENC` (R4, R56): one byte value for each of the nine instructions. It is constant during a
run ("Built once, immutable thereafter", R73) and is no part of the state (R10). -/
structure Enc where
  halt          : Byte
  loadImmediate : Byte
  printRegister : Byte
  add           : Byte
  multiply      : Byte
  push          : Byte
  pop           : Byte
  call          : Byte
  ret           : Byte
  deriving DecidableEq, Repr

end Sys2Proof
end

