-- ==== Sys2Proof/Machine/State.lean ====
section
/-!
DEFINITION. The state of the machine, the tuple `(mem, x, pc, running, out)` of R10, the reasons a step can stop,
and the state after reset (R23). State is plain data.
-/

namespace Sys2Proof.Machine

/-- Memory (R20, R30): the cells that differ from `0x00`, as (address, byte) pairs in the canonical form
`Memory.wf` of Ops.lean. A cell that is not listed holds `0x00`, its reset value (R23, R35). -/
abbrev Memory := List Host.Cell

/-- The kinds of an `OutOfBounds` report: the table "OutOfBounds kinds (rule R142)". -/
inductive OobKind where
  /-- Fetch of an opcode or operand byte at address 256 (raised by the fetch unit, R71, R80 steps 1 and 3). -/
  | memFetch
  /-- A data read at an address of 256 or more (R6); unreachable, since every data address is 8 bits. -/
  | memRead
  /-- A data write at an address of 256 or more (R6); unreachable, since every data address is 8 bits. -/
  | memWrite
  /-- A register operand that is not 0 to 7 (raised by `CheckReg`, R54). -/
  | regIndex
  /-- A pop with `x[7] = 0x00`, which denotes address 256 (raised by POP and RETURN, R44). -/
  | stackRead
  /-- CALL at `pc = 254`, whose return address is 256 (raised by CALL, R130). -/
  | returnAddress
  /-- An image of more than 256 bytes (raised by `load`, before the run, R85). -/
  | loadSize
  deriving DecidableEq, Repr

/-- Why a step answers no next state. The first two are the fatal conditions of the core (R140); a fatal condition
is an outcome and not a field of the state (R10), and the state in which it arose is left as it was (R146). -/
inductive Fault where
  /-- `UnknownOpcode` (R141): raised by the fetch of a byte that no dispatch-table entry has.
  Safe: the spec's own fatal condition. -/
  | unknownOpcode (value : Byte) (address : Pc)
  /-- `OutOfBounds` (R142): raised by the fetch unit, `CheckReg`, the stack underflow test, CALL's return-address
  test and `load`; `pc` is the address of the instruction. Safe: the spec takes a fault where its document leaves
  the access undefined (D6, D7, D9, D10). -/
  | outOfBounds (kind : OobKind) (index : Nat) (pc : Pc)
  /-- No step exists, because `running` is false (R7, R80; U20 calls it stuck). Raised by `step` on a halted machine;
  it is no fatal condition and `run` never reports it. Safe: it adds no behaviour (assumption log 2). -/
  | halted
  deriving DecidableEq, Repr

/-- Refusals: instructions the model gives no meaning to. Every instruction has one, so none is ever refused. -/
inductive Refusal where
  /-- Raised by an arm of `exec` for an instruction with no meaning yet; no arm does. Safe. -/
  | notModelled (mnemonic : String)
  deriving DecidableEq, Repr

/-- The whole state of the machine (R10). There is no other state (R18, R19, R22). -/
structure State where
  /-- The memory, 256 cells of 8 bits (R20). -/
  mem     : Memory
  /-- The register file, eight registers of 8 bits; `x[7]` is the stack pointer (R11, R12). -/
  x       : Vector Byte 8
  /-- The program counter (R14). -/
  pc      : Pc
  /-- The Running flag (R17). -/
  running : Bool
  /-- The output sequence, oldest first (R21). -/
  out     : List Byte
  deriving DecidableEq, Repr

/-- The three outcomes of a step (R7). -/
abbrev StepOutcome := Host.Outcome State Fault Refusal

/-- The state right after reset: the table "Reset values (rule R23)". `x[7] = 0x00` denotes address 256, the top of
memory (R13). -/
def State.reset : State where
  mem     := []
  x       := Vector.replicate 8 0#8
  pc      := 0
  running := true
  out     := []

end Sys2Proof.Machine
end

