-- ==== Sys2Proof/Machine/Ops.lean ====
section
/-!
DEFINITION. The named operations every meaning is written with: memory (R6, R31), the register file (R74), the stack
pointer (R43, R77), the program counter (R76), the output (R88), and raising a fatal condition (R146).

An operation that can raise takes the rest of the handler as its last argument, so that a meaning reads as the
spec's pseudocode does: one statement after the other.
-/

namespace Sys2Proof.Machine

/-! ### Memory -/

/-- The content of cell `a` (R20); a cell that is not listed holds `0x00` (R23). -/
def Memory.read : Memory → Nat → Byte
  | [], _ => 0#8
  | (b, w) :: rest, a => if a = b then w else Memory.read rest a

/-- Cell `a` takes `v`; the canonical form is kept, so `0x00` is never listed. -/
def Memory.write : Memory → Nat → Byte → Memory
  | [], a, v => if v = 0#8 then [] else [(a, v)]
  | (b, w) :: rest, a, v =>
    if a < b then (if v = 0#8 then (b, w) :: rest else (a, v) :: (b, w) :: rest)
    else if a = b then (if v = 0#8 then rest else (a, v) :: rest)
    else (b, w) :: Memory.write rest a v

/-- Every listed address is at least `lo`, below `N`, above the one before it, and holds something but `0x00`. -/
def Memory.wfFrom : Nat → Memory → Bool
  | _, [] => true
  | lo, (a, v) :: rest => decide (lo ≤ a) && decide (a < Config.N) && v != 0#8 && Memory.wfFrom (a + 1) rest

/-- The canonical form of a memory: addresses strictly rising, all below 256, no entry `0x00`. -/
def Memory.wf (m : Memory) : Bool := Memory.wfFrom 0 m

/-- Consecutive cells from `a` on take the bytes of a list (`load`, R85). -/
def Memory.writeBytes (m : Memory) (a : Nat) : List Byte → Memory
  | [] => m
  | b :: bs => Memory.writeBytes (m.write a b) (a + 1) bs

/-- The bytes at `a`, `a + 1`, … that exist, at most `n` of them: addresses are natural numbers and do not wrap
(R32, R71). -/
def Memory.bytesFrom (m : Memory) (a : Nat) : Nat → List Byte
  | 0 => []
  | n + 1 => if a < Config.N then m.read a :: Memory.bytesFrom m (a + 1) n else []

/-! ### Fatal conditions -/

/-- Raising a fatal condition (R146): the step ends, and since all tests of a step precede what the caller can see of
its writes, no state is changed: the outcome carries the report and nothing else. There is no handler, no saved
register and no return (R146, R147). -/
def raise (f : Fault) : StepOutcome := .fault f

/-- The code of a fatal condition, the completion status `run` yields for it (R140, R148, D13); a halted machine
yields 0 (R81). -/
def Fault.code : Fault → Nat
  | .halted             => 0
  | .unknownOpcode _ _  => 1
  | .outOfBounds _ _ _  => 2

/-! ### The register file and the stack pointer -/

/-- `get(i)` of the register file (R74). -/
def State.reg (s : State) (i : Fin 8) : Byte := s.x[i]

/-- `set(i, v)` of the register file (R74). -/
def State.setReg (s : State) (i : Fin 8) (v : Byte) : State := { s with x := s.x.set i v }

/-- The stack pointer is register 7 and has no storage of its own (R12, R77). -/
def State.sp (s : State) : Byte := s.reg Config.SPI

/-- `x[7] <- (x[7] - 1) mod 256` (R43, R112). -/
def State.decSp (s : State) : State := s.setReg Config.SPI (s.sp - 1)

/-- `x[7] <- (x[7] + 1) mod 256` (R43, R112). -/
def State.incSp (s : State) : State := s.setReg Config.SPI (s.sp + 1)

/-! ### The program counter -/

/-- Advance by `n`: `pc <- pc + n` (R76); at most 256 for every instruction the fetch unit has read (R16). -/
def State.advance (s : State) (n : Nat) : State := { s with pc := BitVec.ofNat 9 (s.pc.toNat + n) }

/-- Load: `pc <- zext_9(t)` (R76). -/
def State.loadPc (s : State) (t : Byte) : State := { s with pc := t.setWidth 9 }

/-! ### Output -/

/-- `Emit(v)`: append to the output sequence (R6, R88). -/
def State.emit (s : State) (v : Byte) : State := { s with out := s.out ++ [v] }

/-! ### Memory accesses of a handler -/

/-- Cell `a` takes `v`, all else stays. -/
def State.store (s : State) (a : Nat) (v : Byte) : State := { s with mem := s.mem.write a v }

/-- `MemRead(a, 1)` (R6, R31). -/
def memRead (a : Nat) (s : State) (k : Byte → StepOutcome) : StepOutcome :=
  if a ≥ Config.N then raise (.outOfBounds .memRead a s.pc) else k (s.mem.read a)

/-- `MemWrite(a, 1, v)` (R6, R31). -/
def memWrite (a : Nat) (v : Byte) (s : State) (k : State → StepOutcome) : StepOutcome :=
  if a ≥ Config.N then raise (.outOfBounds .memWrite a s.pc) else k (s.store a v)

/-- The stack underflow test of POP and RETURN (R44): `if x[7] = 0 then raise OutOfBounds(stack_read, 256)`. -/
def checkStack (s : State) (k : StepOutcome) : StepOutcome :=
  if s.sp = 0#8 then raise (.outOfBounds .stackRead 256 s.pc) else k

/-- CALL's return-address test (R130): `pc + 2` as a natural number must be the address of a cell; the rest of the
handler gets it as the byte it fits. -/
def checkReturnAddress (s : State) (k : Byte → StepOutcome) : StepOutcome :=
  if s.pc.toNat + 2 ≥ Config.N then raise (.outOfBounds .returnAddress (s.pc.toNat + 2) s.pc)
  else k (BitVec.ofNat 8 (s.pc.toNat + 2))

end Sys2Proof.Machine
end

