-- ==== Sys2Proof/Machine/Operands.lean ====
section
/-!
DEFINITION. The operand forms (R54). There are two: a register index, a whole byte tested and never masked, and
LOAD_IMMEDIATE's immediate, a whole byte used as it is, which needs no operation. There is no memory-address operand,
displacement, PC-relative or register-indirect form (R54(c)).
-/

namespace Sys2Proof.Machine

/-- `CheckReg(b)` (R6, R54): a register operand byte of 8 or more raises `OutOfBounds(reg_index, b)`; otherwise the
rest of the handler gets the index it names. -/
def withReg (b : Byte) (s : State) (k : Fin 8 → StepOutcome) : StepOutcome :=
  if h : b.toNat < Config.NREG then k ⟨b.toNat, h⟩ else raise (.outOfBounds .regIndex b.toNat s.pc)

end Sys2Proof.Machine
end

