-- ==== Sys2Proof/Machine/Arithmetic.lean ====
section
/-!
DEFINITION. The arithmetic unit (R75, R112) and ADD, MULTIPLY (spec/42_alu.md).
-/

namespace Sys2Proof.Machine

/-- The operations the unit is asked for: a closed type, so that the document's "Unsupported ALU operation" cannot
arise (R75, R113, R144). -/
inductive AluOp where
  | add | mul
  deriving DecidableEq, Repr

/-- `alu(op, a, b)` (R75): the sum or product of the natural numbers, reduced modulo 256 (R112). -/
def alu (op : AluOp) (a b : Byte) : Byte :=
  match op with
  | .add => BitVec.ofNat 8 (a.toNat + b.toNat)
  | .mul => BitVec.ofNat 8 (a.toNat * b.toNat)

/-- The shape ADD and MULTIPLY share (R110, R111): both indices are tested, first operand first; both registers are
read before the write. -/
def aluRegReg (op : AluOp) (regA regB : Byte) (s : State) : StepOutcome :=
  withReg regA s fun a => withReg regB s fun b =>
    .next ((s.setReg a (alu op (s.reg a) (s.reg b))).advance 3)

/-- ADD regA, regB (R110). -/
def execAdd (regA regB : Byte) (s : State) : StepOutcome := aluRegReg .add regA regB s

/-- MULTIPLY regA, regB (R111). -/
def execMultiply (regA regB : Byte) (s : State) : StepOutcome := aluRegReg .mul regA regB s

end Sys2Proof.Machine
end

