-- ==== Sys2Proof/Machine/Stack.lean ====
section
/-!
DEFINITION. PUSH, POP (spec/43_stack.md), and the stack write they share with CALL. The statements take effect one
after the other (R74, R120, R121), which settles R7 as an explicit operand (assumption log 5).
-/

namespace Sys2Proof.Machine

/-- The cell a push from state `s` writes: `(x[7] - 1) mod 256`, always a cell (R32(b), R44(b)). -/
def pushAddress (s : State) : Nat := (s.sp - 1).toNat

/-- `x[7] <- (x[7] - 1) mod 256`, then `MemWrite(x[7], 1, v)`, where `v` is computed from the state after the
decrement (R43, R120, R130). -/
def pushByte (v : State → Byte) (s : State) (k : State → StepOutcome) : StepOutcome :=
  memWrite (pushAddress s) (v s.decSp) s.decSp k

/-- PUSH reg (R120). -/
def execPush (reg : Byte) (s : State) : StepOutcome :=
  withReg reg s fun r => pushByte (fun t => t.reg r) s fun t => .next (t.advance 2)

/-- POP reg (R121): the loaded value is written first, and the increment reads the `x[7]` current then. -/
def execPop (reg : Byte) (s : State) : StepOutcome :=
  withReg reg s fun r => checkStack s <| memRead s.sp.toNat s fun v =>
    .next ((s.setReg r v).incSp.advance 2)

end Sys2Proof.Machine
end

