-- ==== Sys2Proof/Machine/ControlTransfer.lean ====
section
/-!
DEFINITION. CALL, RETURN (spec/44_call_return.md). Each loads the PC and adds no advance (R82, R179).
-/

namespace Sys2Proof.Machine

/-- CALL reg (R130): the return address `pc + 2` is pushed, then the PC takes `x[reg]`, read after the decrement of
the stack pointer. -/
def execCall (reg : Byte) (s : State) : StepOutcome :=
  withReg reg s fun r => checkReturnAddress s fun ra =>
    pushByte (fun _ => ra) s fun t => .next (t.loadPc (t.reg r))

/-- RETURN (R131). -/
def execRet (s : State) : StepOutcome :=
  checkStack s <| memRead s.sp.toNat s fun t => .next (s.incSp.loadPc t)

end Sys2Proof.Machine
end

