-- ==== Sys2Proof/Machine/Flags.lean ====
section
/-!
DEFINITION. The flags. The machine has one, the Running flag of the block `halt_flag` (R17, R78); there are no
condition codes, no carry, zero, sign or overflow flag (R18), so no instruction computes a flag from a result.
-/

namespace Sys2Proof.Machine

/-- `running <- false`, the one write of the Running flag there is (R17, R78, R100). -/
def State.clearRunning (s : State) : State := { s with running := false }

end Sys2Proof.Machine
end

