-- ==== Sys2Proof/Machine/SystemData.lean ====
section
/-!
DEFINITION. HALT, LOAD_IMMEDIATE, PRINT_REGISTER (spec/41_system_and_data.md).
-/

namespace Sys2Proof.Machine

/-- HALT (R100): the Running flag is cleared and the PC advances by 1 all the same. -/
def execHalt (s : State) : StepOutcome := .next (s.clearRunning.advance 1)

/-- LOAD_IMMEDIATE reg, value (R101): `x[reg] <- value`. -/
def execLoadImmediate (reg value : Byte) (s : State) : StepOutcome :=
  withReg reg s fun r => .next ((s.setReg r value).advance 3)

/-- PRINT_REGISTER reg (R102): `Emit(x[reg])`. -/
def execPrintRegister (reg : Byte) (s : State) : StepOutcome :=
  withReg reg s fun r => .next ((s.emit (s.reg r)).advance 2)

end Sys2Proof.Machine
end

