-- ==== Sys2Proof/Syntax.lean ====
section
/-!
DEFINITION. The instructions: one constructor per row of spec/opcode_table.json (R55).

An operand is the operand BYTE the fetch unit has read (R53, R54): a register operand of 8 to 255 is a term of
this type too, since the byte is not masked and it is the instruction, not the decoder, that raises
`OutOfBounds(reg_index, byte)` (R54, R80 step 4a). WellFormed.lean says which operands are valid.
-/

namespace Sys2Proof

/-- An instruction with its operand bytes, first operand first (R53). -/
inductive Instr where
  /-- HALT (R100). -/
  | halt
  /-- LOAD_IMMEDIATE reg, value (R101). -/
  | loadImmediate (reg value : Byte)
  /-- PRINT_REGISTER reg (R102). -/
  | printRegister (reg : Byte)
  /-- ADD regA, regB (R110). -/
  | add (regA regB : Byte)
  /-- MULTIPLY regA, regB (R111). -/
  | multiply (regA regB : Byte)
  /-- PUSH reg (R120). -/
  | push (reg : Byte)
  /-- POP reg (R121). -/
  | pop (reg : Byte)
  /-- CALL reg (R130). -/
  | call (reg : Byte)
  /-- RETURN (R131). -/
  | ret
  deriving DecidableEq, Repr

end Sys2Proof
end

