-- ==== Sys2Proof/Machine/Dispatch.lean ====
section
/-!
DEFINITION. The handler of each instruction (R73, R80 step 4): one arm per constructor of Instr.
-/

namespace Sys2Proof.Machine

def exec (i : Instr) (s : State) : Host.Outcome State Fault Refusal :=
  match i with
  | .halt => Sys2Proof.Machine.execHalt s
  | .loadImmediate reg value => Sys2Proof.Machine.execLoadImmediate reg value s
  | .printRegister reg => Sys2Proof.Machine.execPrintRegister reg s
  | .add regA regB => Sys2Proof.Machine.execAdd regA regB s
  | .multiply regA regB => Sys2Proof.Machine.execMultiply regA regB s
  | .push reg => Sys2Proof.Machine.execPush reg s
  | .pop reg => Sys2Proof.Machine.execPop reg s
  | .call reg => Sys2Proof.Machine.execCall reg s
  | .ret => Sys2Proof.Machine.execRet s

end Sys2Proof.Machine
end

