-- ==== Sys2Proof/WellFormed.lean ====
section
/-!
DEFINITION. Which instructions are well formed: every register operand is a valid index, 0 to 7 (R54). An
immediate has no illegal value (R58).
-/

namespace Sys2Proof

/-- The register operands of an instruction, first operand first: the bytes `CheckReg` is applied to, in the
order of R80 step 4a. -/
def Instr.regOperands : Instr → List Byte
  | .halt              => []
  | .loadImmediate r _ => [r]
  | .printRegister r   => [r]
  | .add a b           => [a, b]
  | .multiply a b      => [a, b]
  | .push r            => [r]
  | .pop r             => [r]
  | .call r            => [r]
  | .ret               => []

/-- A register operand byte that names a register: 0 to 7, not masked (R54). -/
def validReg (b : Byte) : Bool := decide (b.toNat < Config.NREG)

/-- Well-formedness: every register operand is a valid index (R54). -/
def Instr.wf (i : Instr) : Bool := i.regOperands.all validReg

/-- `Instr.wf` as a proposition. -/
abbrev Instr.WF (i : Instr) : Prop := i.wf = true

end Sys2Proof
end

