-- ==== Sys2Proof/Decode.lean ====
section
/-!
DEFINITION. The opcode map, the decoder (R50 to R58, R71 to R73) and the encoder.

The dispatch key is the whole opcode byte (R51): no field of it is read. The map `ENC` is an argument
(R56, D3); `defaultEnc` holds the values of R55 and is the map the machine runs with.
-/

namespace Sys2Proof

/-- The opcode values of the table "Opcode map (rule R55)". PRESUMED: the spec marks them
`[from general knowledge, not in source]` and gives them as the default of the parameter `ENC`
(D3, assumption log 1). -/
def defaultEnc : Enc where
  halt          := 0x01
  loadImmediate := 0x82
  printRegister := 0x47
  add           := 0xA0
  multiply      := 0xA2
  push          := 0x45
  pop           := 0x46
  call          := 0x50
  ret           := 0x11

/-- The nine identities, in the order of the table of R55. -/
def Op.all : List Op :=
  [.halt, .loadImmediate, .printRegister, .add, .multiply, .push, .pop, .call, .ret]

/-- The byte an opcode map assigns to an instruction (R56). -/
def Enc.byte (E : Enc) : Op → Byte
  | .halt          => E.halt
  | .loadImmediate => E.loadImmediate
  | .printRegister => E.printRegister
  | .add           => E.add
  | .multiply      => E.multiply
  | .push          => E.push
  | .pop           => E.pop
  | .call          => E.call
  | .ret           => E.ret

/-- The constraints of R56 on an opcode map: the nine values are pairwise distinct and `0x00` is none of them. -/
abbrev Enc.Valid (E : Enc) : Prop := (Op.all.map E.byte).Nodup ∧ 0#8 ∉ Op.all.map E.byte

/-- The dispatch table (R73): which of the nine handlers a byte selects, or none. -/
def Enc.lookup (E : Enc) (b : Byte) : Option Op := Op.all.find? (fun o => E.byte o == b)

/-- The format of an instruction (the tables of R53 and R55). -/
def Op.format : Op → Format
  | .halt | .ret                          => .Z
  | .printRegister | .push | .pop | .call => .R
  | .loadImmediate                        => .RI
  | .add | .multiply                      => .RR

/-- How many operand bytes a format has (R53). -/
def Format.operandCount : Format → Nat
  | .Z  => 0
  | .R  => 1
  | .RI => 2
  | .RR => 2

/-- The operand count of an instruction, a property of its dispatch-table entry (R51, R57). -/
def Op.operandCount (o : Op) : Nat := o.format.operandCount

/-- The identity of an instruction. -/
def Instr.op : Instr → Op
  | .halt              => .halt
  | .loadImmediate _ _ => .loadImmediate
  | .printRegister _   => .printRegister
  | .add _ _           => .add
  | .multiply _ _      => .multiply
  | .push _            => .push
  | .pop _             => .pop
  | .call _            => .call
  | .ret               => .ret

/-- The operand bytes of an instruction, `B1` first (R53). -/
def Instr.operands : Instr → List Byte
  | .halt              => []
  | .loadImmediate r v => [r, v]
  | .printRegister r   => [r]
  | .add a b           => [a, b]
  | .multiply a b      => [a, b]
  | .push r            => [r]
  | .pop r             => [r]
  | .call r            => [r]
  | .ret               => []

/-- The instruction an identity makes with the operand bytes `B1`, `B2` (R53, R72); a byte its format does not
have is ignored. -/
def Op.instr (o : Op) (b1 b2 : Byte) : Instr :=
  match o with
  | .halt          => .halt
  | .loadImmediate => .loadImmediate b1 b2
  | .printRegister => .printRegister b1
  | .add           => .add b1 b2
  | .multiply      => .multiply b1 b2
  | .push          => .push b1
  | .pop           => .pop b1
  | .call          => .call b1
  | .ret           => .ret

/-- Why the decoder answers no instruction. -/
inductive DecodeError where
  /-- The opcode byte has no dispatch-table entry (R58). -/
  | unknownOpcode (value : Byte)
  /-- Byte number `index` of the instruction (0 the opcode byte, 1 and 2 the operand bytes) is not there. -/
  | missingByte (index : Nat)
  deriving DecidableEq, Repr

/-- The decoder over any bytes: the instruction at their front and the bytes after it, or the FIRST reason there
is none, in the order of R80 steps 1 to 3: no opcode byte, no table entry, no first operand byte, no second. -/
def decodeWith (E : Enc) : List Byte → Except DecodeError (Instr × List Byte)
  | [] => .error (.missingByte 0)
  | b0 :: bs =>
    match E.lookup b0 with
    | none   => .error (.unknownOpcode b0)
    | some o =>
      match o.format, bs with
      | .Z, rest              => .ok (o.instr 0 0, rest)
      | .R, []                => .error (.missingByte 1)
      | .R, b1 :: rest        => .ok (o.instr b1 0, rest)
      | .RI, []               => .error (.missingByte 1)
      | .RI, [_]              => .error (.missingByte 2)
      | .RI, b1 :: b2 :: rest => .ok (o.instr b1 b2, rest)
      | .RR, []               => .error (.missingByte 1)
      | .RR, [_]              => .error (.missingByte 2)
      | .RR, b1 :: b2 :: rest => .ok (o.instr b1 b2, rest)

/-- The decoder of this hardware: the default opcode map (R55). -/
def decode (bytes : List Byte) : Except DecodeError (Instr × List Byte) := decodeWith defaultEnc bytes

/-- The bytes of an instruction: its opcode byte, then its operand bytes, ascending (R50, R53). -/
def encodeWith (E : Enc) (i : Instr) : List Byte := E.byte i.op :: i.operands

/-- The encoder of this hardware: the default opcode map (R55). -/
def encode (i : Instr) : List Byte := encodeWith defaultEnc i

/-- The three bytes, in memory order, of an instruction whose bits, numbered as spec/opcode_table.json numbers them
(bit 0 the least significant bit of the first byte), are the low `nbits` bits of `w`; every bit above is 0. -/
def tableBytes (nbits w : Nat) : List Byte :=
  let v := w % 2 ^ nbits
  [BitVec.ofNat 8 v, BitVec.ofNat 8 (v / 256), BitVec.ofNat 8 (v / 65536)]

/-- What this decoder reads from a word of spec/opcode_table.json (for the host's check of the table). -/
def decodeTableWord (nbits w : Nat) : Option Instr :=
  match decode (tableBytes nbits w) with
  | .ok (i, _) => some i
  | .error _   => none

end Sys2Proof
end

