-- ==== Sys2Proof/Machine/Fetch.lean ====
section
/-!
DEFINITION. The fetch unit (R71) with the decoder behind it (R72), steps 1 to 3 of R80, and the placing of a table
word where the next fetch finds it.
-/

namespace Sys2Proof.Machine

/-- The bytes the fetch unit can read at the PC: the cells `pc`, `pc + 1`, `pc + 2` that exist (R32(a)). A read has no
side effect (R35), so handing the decoder bytes the instruction does not have cannot be seen (assumption log 13). -/
def State.fetchBytes (s : State) : List Byte := s.mem.bytesFrom s.pc.toNat 3

/-- Steps 1 to 3 of R80: fetch and decode at the PC, and run the rest with the instruction; the first reason there is
none is the fatal condition raised (R145(1) to (4)): a missing byte `j` is `OutOfBounds(mem_fetch, pc + j)`. -/
def fetch (E : Enc) (s : State) (k : Instr → StepOutcome) : StepOutcome :=
  match decodeWith E s.fetchBytes with
  | .ok (i, _)                 => k i
  | .error (.unknownOpcode b)  => raise (.unknownOpcode b s.pc)
  | .error (.missingByte j)    => raise (.outOfBounds .memFetch (s.pc.toNat + j) s.pc)

/-- The PC from which the longest instruction can be fetched: the PC itself where three bytes fit, else 0. -/
def fetchWordPc (pc : Pc) : Pc := if pc.toNat + 3 ≤ Config.N then pc else 0

/-- `s` with the bytes stored where the next fetch reads them, and running, so that the next step fetches them. -/
def placeAtFetch (s : State) (bytes : List Byte) : State :=
  { s with
    mem := s.mem.writeBytes (fetchWordPc s.pc).toNat bytes
    pc := fetchWordPc s.pc
    running := true }

end Sys2Proof.Machine
end

