-- ==== Sys2Proof/Machine/Step.lean ====
section
/-!
DEFINITION. One step of the execution loop (R80): fetch, decode, run the handler. Each handler advances or loads the
PC itself (R82), so nothing is added around `exec`.
-/

namespace Sys2Proof.Machine

/-- The step under an opcode map (R56). A step exists only while `running` is true (R7, R80). -/
def stepWith (E : Enc) (s : State) : Host.Outcome State Fault Refusal :=
  if s.running then fetch E s (fun i => exec i s) else .fault .halted

/-- The step of this hardware: the default opcode map (R55, assumption log 1). -/
def step (s : State) : Host.Outcome State Fault Refusal := stepWith defaultEnc s

/-- `s` with a word of spec/opcode_table.json stored where `step` fetches its next instruction (assumption log 9). -/
def State.withFetchWord (s : State) (nbits w : Nat) : State := placeAtFetch s (tableBytes nbits w)

end Sys2Proof.Machine
end

