-- ==== Sys2Proof/Machine/Run.lean ====
section
/-!
DEFINITION. What the core exposes to its host (R85): `load(bytes)`, `run()` with its completion status (R81, R148), and
the read accessors; and the sink's text of an emitted value (R88).
-/

namespace Sys2Proof.Machine

/-- `load(bytes)` (R85(a)): cells `0 .. L-1` take the image and all else is untouched; an image of more than 256 bytes
is refused as `OutOfBounds(load_size, L)`, `pc` reported as 0, with no cell written (R142, D16). The host calls it
once, between reset and `run()` (assumption log 10). -/
def State.load (s : State) (bytes : List Byte) : Except Fault State :=
  if bytes.length > Config.N then .error (.outOfBounds .loadSize bytes.length 0)
  else .ok { s with mem := s.mem.writeBytes 0 bytes }

/-- Reset, then load (R170 steps 1 and 2): the state at the first fetch (R171). -/
def boot (bytes : List Byte) : Except Fault State := State.reset.load bytes

/-- Accessor `reg(i)`, `0 <= i <= 7` (R85(c)). -/
def State.peekReg (s : State) (i : Fin 8) : Byte := s.reg i

/-- Accessor `mem(a)`, `0 <= a <= 255` (R85(c)). -/
def State.peekMem (s : State) (a : Fin 256) : Byte := s.mem.read a

/-- Accessor `pc()` (R85(c)). -/
def State.peekPc (s : State) : Nat := s.pc.toNat

/-- How a run under fuel ends. -/
inductive RunResult where
  /-- A clean halt, with the final state (R79). -/
  | halted (s : State)
  /-- The error state: the report, and the state before the step that raised, which the host may still read (R146). -/
  | fatal (f : Fault) (s : State)
  /-- The fuel ran out with the machine still running (R87); no outcome of the machine (assumption log 11). -/
  | outOfFuel (s : State)
  /-- A refused step; never the case, since every instruction has its meaning. -/
  | refused (r : Refusal) (s : State)
  deriving DecidableEq, Repr

/-- `run()` (R81) with at most `fuel` steps: while `running`, step; a fatal condition stops it and is not retried
(R147); a machine that does not run takes no step. -/
def runWith (E : Enc) : Nat → State → RunResult
  | 0, s => if s.running then .outOfFuel s else .halted s
  | fuel + 1, s =>
    if s.running then
      match stepWith E s with
      | .next t    => runWith E fuel t
      | .fault f   => .fatal f s
      | .refused r => .refused r s
    else .halted s

/-- `run()` of this hardware, under fuel. -/
def run (fuel : Nat) (s : State) : RunResult := runWith defaultEnc fuel s

/-- The completion status (R81, R148): 0 on a clean halt, the fatal condition's code otherwise. -/
def RunResult.completionStatus : RunResult → Option Nat
  | .halted _    => some 0
  | .fatal f _   => some f.code
  | .outOfFuel _ => none
  | .refused _ _ => none

/-- The text of one emitted value: its decimal numeral, no sign, no leading zeros (R88, D15); the line end is the
sink's (assumption log 12). -/
def sinkLine (v : Byte) : String := toString v.toNat

/-- The lines the sink shows for a state's output sequence, oldest first (R21, R88). -/
def State.sinkLines (s : State) : List String := s.out.map sinkLine

end Sys2Proof.Machine
end

