-- ==== Sys2Proof/Safety.lean ====
section
/-!
DEFINITION. What counts as a legal state, a legal report and a safe run, in the terms the statements use.
-/

namespace Sys2Proof.Machine

/-- The invariant of every state a run can be in: memory is in its canonical form (so every listed address is a cell,
R20) and the PC is 0 to 256 (R16). -/
abbrev State.Inv (s : State) : Prop := s.mem.wf = true ∧ s.pc.toNat ≤ 256

/-- The byte an instruction fetch at the PC reads first (R80 step 1). -/
def State.opcodeByte (s : State) : Byte := s.mem.read s.pc.toNat

/-- The dispatch-table entry of the byte at the PC, if there is a cell there (R80 steps 1 and 2). -/
def State.entry (E : Enc) (s : State) : Option Op :=
  if s.pc.toNat ≤ 255 then E.lookup s.opcodeByte else none

/-- The instruction the handler of `o` would run with the bytes after the PC as `B1`, `B2` (R80 step 4). -/
def State.instrAt (s : State) (o : Op) : Instr := o.instr (s.mem.read (s.pc.toNat + 1)) (s.mem.read (s.pc.toNat + 2))

/-- The reports a step from a running state `s` may make (the tables of R140 and R142, less what cannot occur during a
run): what is reported, and the cause it must have. The entry of the byte at the PC says which instruction raised; a
handler's own report presupposes that its operand bytes are cells, and a test after `CheckReg` that its registers are
valid (R145). -/
def Fault.LegalReport (E : Enc) (s : State) : Fault → Prop
  | .unknownOpcode value address =>
    value = s.opcodeByte ∧ address = s.pc ∧ s.pc.toNat ≤ 255 ∧ E.lookup s.opcodeByte = none
  | .outOfBounds .memFetch index pc =>
    pc = s.pc ∧ index = 256 ∧
      (s.pc.toNat = 256 ∨ ∃ o, s.entry E = some o ∧ 256 ≤ s.pc.toNat + o.operandCount)
  | .outOfBounds .regIndex index pc =>
    pc = s.pc ∧ 8 ≤ index ∧
      ∃ o b, s.entry E = some o ∧ s.pc.toNat + o.operandCount ≤ 255 ∧ index = b.toNat ∧
        (s.instrAt o).regOperands.find? (fun c => !validReg c) = some b
  | .outOfBounds .stackRead index pc =>
    pc = s.pc ∧ index = 256 ∧ s.sp = 0#8 ∧
      ∃ o, (o = .pop ∨ o = .ret) ∧ s.entry E = some o ∧ s.pc.toNat + o.operandCount ≤ 255 ∧ (s.instrAt o).WF
  | .outOfBounds .returnAddress index pc =>
    pc = s.pc ∧ index = 256 ∧ s.pc.toNat = 254 ∧ s.entry E = some .call ∧ (s.instrAt .call).WF
  | .outOfBounds .memRead _ _ => False
  | .outOfBounds .memWrite _ _ => False
  | .outOfBounds .loadSize _ _ => False
  | .halted => False

/-- The "writes" column of the table "Register use (rule R11)": whether an instruction may change a register. -/
def writesReg : Instr → Fin 8 → Bool
  | .halt, _              => false
  | .loadImmediate r _, j => decide (j.val = r.toNat)
  | .printRegister _, _   => false
  | .add a _, j           => decide (j.val = a.toNat)
  | .multiply a _, j      => decide (j.val = a.toNat)
  | .push _, j            => decide (j = Config.SPI)
  | .pop r, j             => decide (j.val = r.toNat) || decide (j = Config.SPI)
  | .call _, j            => decide (j = Config.SPI)
  | .ret, j               => decide (j = Config.SPI)

/-- A safe run: from `s`, no number of steps ends in a fatal condition. Whether it halts is left open (R87). -/
def State.SafeRun (E : Enc) (s : State) : Prop := ∀ fuel f t, runWith E fuel s ≠ .fatal f t

end Sys2Proof.Machine
end

