-- ==== Sys2Proof/Certificates/Slice0/Obligations.lean ====
section
/-!
DEFINITION. The statements for the provers. Each docstring names the rule of spec/ it formalises, or the sections it
rests on, and where it rests on a choice of the spec (D<n> of 92_eei_decisions.md) or of the model (log <n>).

Most are over `stepWith E` for an arbitrary opcode map `E` (R56): no opcode value matters to them, and `step` is
`stepWith defaultEnc`.
-/

open Sys2Proof Sys2Proof.Machine

/-! ### Encoding and decoding -/

/-- Under every opcode map R56 admits, decoding the bytes of an instruction, whatever follows them, gives the
instruction with every operand byte and leaves what follows (30_encoding.md R50, R53, R54, R56). -/
def Obligations.DecodeOfEncodedInstruction : Prop :=
  ∀ E : Enc, E.Valid → ∀ (i : Instr) (rest : List Byte), decodeWith E (encodeWith E i ++ rest) = .ok (i, rest)

/-- The other direction: bytes that decode are the encoding of what they decode to, and the rest. So no two byte
sequences share an instruction and none of its bits is ignored (30_encoding.md R51, R53). -/
def Obligations.DecodedBytesAreTheEncoding : Prop :=
  ∀ (E : Enc) (bytes : List Byte) (i : Instr) (rest : List Byte),
    decodeWith E bytes = .ok (i, rest) → bytes = encodeWith E i ++ rest

/-- Under every opcode map R56 admits the dispatch table has exactly nine entries, one for each instruction, keyed by
the whole byte; lookup of any other byte answers none, and fetching one is fatal (40 R73). The nine bytes of the
default map are R55's, which the spec supplies from general knowledge (D3; log 1, PRESUMED). -/
def Obligations.DispatchTableHasExactlyNineEntries : Prop :=
  (defaultEnc.Valid ∧ defaultEnc.byte .halt = 0x01#8 ∧ defaultEnc.byte .loadImmediate = 0x82#8 ∧
    defaultEnc.byte .printRegister = 0x47#8 ∧ defaultEnc.byte .add = 0xA0#8 ∧ defaultEnc.byte .multiply = 0xA2#8 ∧
    defaultEnc.byte .push = 0x45#8 ∧ defaultEnc.byte .pop = 0x46#8 ∧ defaultEnc.byte .call = 0x50#8 ∧
    defaultEnc.byte .ret = 0x11#8) ∧
  ∀ E : Enc, E.Valid →
    (∀ s : State, s.running = true → s.pc.toNat ≤ 255 → E.lookup s.opcodeByte = none →
      ∃ f, stepWith E s = .fault f) ∧
    (∀ (b : Byte) (o : Op), E.lookup b = some o ↔ E.byte o = b) ∧
    (∀ b : Byte, E.lookup b = none ↔ ∀ o, E.byte o ≠ b) ∧
    Op.all.length = 9 ∧ Op.all.Nodup ∧ ∀ o, o ∈ Op.all

/-- R57: the dispatch-table entry of the opcode byte fixes the instruction and the number of its operand bytes; a byte
with no entry has no length: the step ends in `UnknownOpcode`, and is the same whatever the rest of memory holds,
since nothing after the byte is read. -/
def Obligations.TableEntryFixesInstructionLength : Prop :=
  (∀ (E : Enc) (b : Byte) (bs : List Byte),
    (∀ o, E.lookup b = some o → o.operandCount ≤ bs.length →
      ∃ i, decodeWith E (b :: bs) = .ok (i, bs.drop o.operandCount) ∧ i.op = o ∧
        i.operands = bs.take o.operandCount ∧ (encodeWith E i).length = 1 + o.operandCount) ∧
    (E.lookup b = none → decodeWith E (b :: bs) = .error (.unknownOpcode b))) ∧
  (∀ (E : Enc) (s : State) (m : Memory), s.running = true → s.pc.toNat ≤ 255 → E.lookup s.opcodeByte = none →
    m.read s.pc.toNat = s.opcodeByte →
    stepWith E { s with mem := m } = .fault (.unknownOpcode s.opcodeByte s.pc)) ∧
  (Op.halt.operandCount = 0 ∧ Op.ret.operandCount = 0 ∧
    Op.printRegister.operandCount = 1 ∧ Op.push.operandCount = 1 ∧ Op.pop.operandCount = 1 ∧
    Op.call.operandCount = 1 ∧
    Op.loadImmediate.operandCount = 2 ∧ Op.add.operandCount = 2 ∧ Op.multiply.operandCount = 2)

/-- Under every opcode map R56 admits, 247 of the 256 byte values have no dispatch-table entry, `0x00` among them
(30_encoding.md R56, R58; that `0x00` is unmapped the spec derives from its document's fatal-path scenario). -/
def Obligations.UnmappedByteValuesAre247 : Prop :=
  ∀ E : Enc, E.Valid →
    ((List.range 256).filter (fun n => (E.lookup (BitVec.ofNat 8 n)).isNone)).length = 247 ∧ E.lookup 0#8 = none

/-- The words of the nine rows of the opcode table, written out from R53 and R55 with operands, decode to the
instructions they stand for. The byte values are the default of the parameter `ENC`, supplied by the spec from general
knowledge (D3; log 1, PRESUMED). -/
def Obligations.DefaultOpcodeWordsDecode : Prop :=
  decode [0b00000001] = .ok (.halt, []) ∧
  decode [0b10000010, 0b00000011, 0b11001000] = .ok (.loadImmediate 3 200, []) ∧
  decode [0b01000111, 0b00000101] = .ok (.printRegister 5, []) ∧
  decode [0b10100000, 0b00000010, 0b00000001] = .ok (.add 2 1, []) ∧
  decode [0b10100010, 0b00000001, 0b00000110] = .ok (.multiply 1 6, []) ∧
  decode [0b01000101, 0b00000111] = .ok (.push 7, []) ∧
  decode [0b01000110, 0b00000100] = .ok (.pop 4, []) ∧
  decode [0b01010000, 0b00000010] = .ok (.call 2, []) ∧
  decode [0b00010001] = .ok (.ret, [])

/-! ### Reset, load, run -/

/-- The table "Reset values (rule R23)". That `x[7]` resets to `0x00`, denoting address 256, is the spec's decision D4
(log 4); that `out` is empty it derives. -/
def Obligations.ResetStateValues : Prop :=
  (∀ a, State.reset.mem.read a = 0#8) ∧ (∀ j : Fin 8, State.reset.reg j = 0#8) ∧
    State.reset.pc.toNat = 0 ∧ State.reset.running = true ∧ State.reset.out = []

/-- The state at the first fetch (70_reset_and_hazards.md R170, R171; 40_core_loop_and_blocks.md R85(a)): the image
from address 0, `0x00` after it, all else as at reset. An image of more than 256 bytes is refused (decision D16). -/
def Obligations.LoadedImageIsTheMemory : Prop :=
  ∀ image : List Byte,
    (image.length ≤ 256 → ∃ s, boot image = .ok s ∧
      (∀ a (h : a < image.length), s.mem.read a = image[a]) ∧
      (∀ a, image.length ≤ a → s.mem.read a = 0#8) ∧
      (∀ j : Fin 8, s.reg j = 0#8) ∧ s.pc.toNat = 0 ∧ s.running = true ∧ s.out = [] ∧ s.Inv) ∧
    (256 < image.length → boot image = .error (.outOfBounds .loadSize image.length 0))

/-- The empty image: the first step raises `UnknownOpcode(0x00, 0)` under every opcode map R56 admits, and the run
ends with the reset state (70_reset_and_hazards.md R171; the document's fatal-path scenario S6) and status 1 (decision
D13). -/
def Obligations.EmptyImageRaisesUnknownOpcode : Prop :=
  boot [] = .ok State.reset ∧
  ∀ E : Enc, E.Valid → stepWith E State.reset = .fault (.unknownOpcode 0 0) ∧
    ∀ n, runWith E (n + 1) State.reset = .fatal (.unknownOpcode 0 0) State.reset ∧
      (runWith E (n + 1) State.reset).completionStatus = some 1

/-- The invariant holds after reset (10_state.md R16, R23; the canonical form is the model's, log 8). -/
def Obligations.ResetMeetsTheInvariant : Prop := State.reset.Inv

/-- Every step keeps the invariant, under every opcode map: the memory stays in canonical form, so every listed
address is a cell, and the PC stays 0 to 256 (10_state.md R16, R20; the canonical form is the model's, log 8). -/
def Obligations.EveryStepKeepsTheInvariant : Prop :=
  ∀ (E : Enc) (s t : State), s.Inv → stepWith E s = .next t → t.Inv

/-- `run()` tells a clean halt from a fatal condition by its outcome and not by the flag: a halted run ends with the
Running flag false and status 0; a fatal one ends with the flag true, with a legal report and a status that is not 0.
A step that raises writes nothing: the run ends in the very state the step was taken from, every field of it; a step
that answers next is followed by the run from its next state (40 R81, 60 R146(a), (f), R148; that this holds of
`OutOfBounds` too is decision D12, the non-zero numbers are D13; the fuel is the model's, log 11). -/
def Obligations.RunOutcomeTellsHaltFromFatal : Prop :=
  ∀ (E : Enc) (n : Nat) (s : State),
    (∀ f, s.running = true → stepWith E s = .fault f → runWith E (n + 1) s = .fatal f s) ∧
    (∀ t, stepWith E s = .next t → runWith E (n + 1) s = runWith E n t) ∧
    (∀ t, s.Inv → runWith E n s = .halted t → t.running = false ∧ t.Inv ∧
      (runWith E n s).completionStatus = some 0) ∧
    (∀ f t, s.Inv → runWith E n s = .fatal f t → t.running = true ∧ t.Inv ∧ stepWith E t = .fault f ∧ f.LegalReport E t ∧
      ∃ c, (runWith E n s).completionStatus = some c ∧ c ≠ 0)

/-- A run that has ended ends the same way with any more fuel: the outcome is a function of the state (40 R83; the
fuel is the model's, log 11). -/
def Obligations.MoreFuelGivesTheSameOutcome : Prop :=
  ∀ (E : Enc) (n k : Nat) (s : State), (∀ t, runWith E n s ≠ .outOfFuel t) → runWith E (n + k) s = runWith E n s

/-- The model's `run` and the host's `Core.run` agree on the steps they take: `n` steps that all answer next are the
same steps (40 R81; the fuel is the model's, log 11). -/
def Obligations.RunAgreesWithTheHostsRun : Prop :=
  ∀ (n : Nat) (s t : State), Sys2Proof.core.run n s = .next t →
    run n s = if t.running then .outOfFuel t else .halted t

/-- A run is safe exactly when the machine has halted or its next step answers a state from which the run is safe (40
R79, R81). -/
def Obligations.SafeRunUnfoldsByOneStep : Prop :=
  ∀ (E : Enc) (s : State), s.SafeRun E ↔ s.running = false ∨ ∃ t, stepWith E s = .next t ∧ t.SafeRun E

/-! ### The step -/

/-- When the bytes at the PC decode to an instruction, the step of a running machine is that instruction's handler,
and nothing is added around it: the handler moves the PC (40 R80, R82). -/
def Obligations.StepRunsTheDecodedInstruction : Prop :=
  (∀ (s : State) (i : Instr) (rest : List Byte), s.running = true → decode s.fetchBytes = .ok (i, rest) →
    step s = exec i s) ∧
  (∀ (E : Enc) (s : State) (i : Instr) (rest : List Byte), s.running = true →
    decodeWith E s.fetchBytes = .ok (i, rest) → stepWith E s = exec i s)

/-- When an instruction's encoding stands in memory at the PC, the step of a running machine is its handler, wherever
the instruction lies and whatever follows it (30 R50, R53; 40 R71, R80). -/
def Obligations.StepRunsTheEncodedInstruction : Prop :=
  ∀ (E : Enc) (s : State) (i : Instr), E.Valid → s.running = true →
    s.pc.toNat + (encodeWith E i).length ≤ 256 →
    (∀ k (h : k < (encodeWith E i).length), s.mem.read (s.pc.toNat + k) = (encodeWith E i)[k]) →
    stepWith E s = exec i s

/-- A table word placed where the next fetch reads is the instruction the next step runs (log 9). -/
def Obligations.PlacedTableWordIsRunNext : Prop :=
  ∀ (s : State) (nbits w : Nat) (i : Instr), s.Inv → decodeTableWord nbits w = some i →
    step (s.withFetchWord nbits w) = exec i (s.withFetchWord nbits w)

/-- Steps 1 to 3 of the step function as written (40 R80), with the order of the fatal conditions (60 R145(1) to (4);
the spec's decision D12): the PC, the table entry, the first operand byte, the second; then the handler with `B1`,
`B2`. -/
def Obligations.StepTestsInTheSpecsOrder : Prop :=
  ∀ (E : Enc) (s : State), s.running = true →
    (256 ≤ s.pc.toNat → stepWith E s = .fault (.outOfBounds .memFetch s.pc.toNat s.pc)) ∧
    (s.pc.toNat ≤ 255 → E.lookup (s.mem.read s.pc.toNat) = none →
      stepWith E s = .fault (.unknownOpcode (s.mem.read s.pc.toNat) s.pc)) ∧
    (∀ o, s.pc.toNat ≤ 255 → E.lookup (s.mem.read s.pc.toNat) = some o →
      (1 ≤ o.operandCount → 256 ≤ s.pc.toNat + 1 →
        stepWith E s = .fault (.outOfBounds .memFetch (s.pc.toNat + 1) s.pc)) ∧
      (o.operandCount = 2 → s.pc.toNat + 1 ≤ 255 → 256 ≤ s.pc.toNat + 2 →
        stepWith E s = .fault (.outOfBounds .memFetch (s.pc.toNat + 2) s.pc)) ∧
      (s.pc.toNat + o.operandCount ≤ 255 →
        stepWith E s = exec (o.instr (s.mem.read (s.pc.toNat + 1)) (s.mem.read (s.pc.toNat + 2))) s))

/-- R141: a fetched byte with no dispatch-table entry raises `UnknownOpcode` with the byte and the PC, whatever bytes
follow it, and the run ends in the state before the step. -/
def Obligations.UnknownOpcodeIsReported : Prop :=
  ∀ (E : Enc) (s : State), s.running = true → s.pc.toNat ≤ 255 → E.lookup s.opcodeByte = none →
    stepWith E s = .fault (.unknownOpcode s.opcodeByte s.pc) ∧
    (∀ n, runWith E (n + 1) s = .fatal (.unknownOpcode s.opcodeByte s.pc) s) ∧
    (∀ m : Memory, m.read s.pc.toNat = s.opcodeByte →
      stepWith E { s with mem := m } = .fault (.unknownOpcode s.opcodeByte s.pc))

/-- A machine that does not run has no step, and `run()` on it takes none and yields 0 (40 R80, R81; decision D17;
that "no step" is the outcome `Fault.halted` is the model's choice, log 2). -/
def Obligations.HaltedMachineTakesNoStep : Prop :=
  ∀ (E : Enc) (s : State), s.running = false →
    stepWith E s = .fault .halted ∧
    ∀ n, runWith E n s = .halted s ∧ (runWith E n s).completionStatus = some 0

/-- Whatever a step of a running machine raises is a legal report with its cause present: `UnknownOpcode` with the
byte, which has no entry, and the PC; `mem_fetch` 256 where the PC is 256 or the fetched entry has an operand byte
there; `reg_index` with the first invalid register operand byte of the fetched instruction; `stack_read` 256 of a POP
or RETURN at `x[7] = 0x00`; `return_address` 256 of a CALL at 254; the kinds `mem_read`, `mem_write`, `load_size`
never (60 R140 to R142, R145; decisions D6, D7, D9, D10, D12, D14). -/
def Obligations.EveryFaultIsALegalReport : Prop :=
  ∀ (E : Enc) (s : State) (f : Fault), s.Inv → s.running = true → stepWith E s = .fault f → f.LegalReport E s

/-- No step is ever refused: every instruction has its meaning (00 R7 gives a step no such outcome). -/
def Obligations.NoStepIsRefused : Prop := ∀ (E : Enc) (s : State) (r : Refusal), stepWith E s ≠ .refused r

/-- A handler completes exactly when its register operands are 0 to 7, the stack is not empty for POP and RETURN, and
CALL's return address is a cell's (60 R142, R145(5) to (7); decisions D7, D9, D10). -/
def Obligations.HandlerCompletesExactlyWhen : Prop :=
  ∀ (i : Instr) (s : State), (∃ t, exec i s = .next t) ↔
    i.WF ∧ ((i.op = .pop ∨ i.op = .ret) → s.sp ≠ 0#8) ∧ (i.op = .call → s.pc.toNat ≤ 253)

/-- An instruction with a register operand byte of 8 or more raises `OutOfBounds(reg_index)` with the FIRST such byte,
before any other test of its own (30 R54, 60 R145(5), (6); decisions D7, D12). -/
def Obligations.FirstInvalidRegisterIsReported : Prop :=
  ∀ (i : Instr) (s : State), ¬ i.WF →
    ∃ b, i.regOperands.find? (fun c => !validReg c) = some b ∧ 8 ≤ b.toNat ∧
      exec i s = .fault (.outOfBounds .regIndex b.toNat s.pc)

/-! ### The instructions -/

/-- HALT clears the Running flag and advances the PC by 1; registers, memory and `out` keep their values; it has no
fatal condition of its own; it is the only instruction that writes the flag; after it there is no further step and
`run()` yields 0 (41 R100). Its byte `0x01` is the default of the parameter `ENC`, general knowledge (D3; log 1,
PRESUMED). -/
def Obligations.HaltClearsRunning : Prop :=
  encode .halt = [0x01#8] ∧
  ∀ s : State,
    (∃ t, exec .halt s = .next t ∧ t.running = false ∧ (s.pc.toNat ≤ 255 → t.pc.toNat = s.pc.toNat + 1) ∧
      (∀ j : Fin 8, t.reg j = s.reg j) ∧ (∀ a, t.mem.read a = s.mem.read a) ∧ t.out = s.out ∧
      ∀ E n, runWith E n t = .halted t ∧ (runWith E n t).completionStatus = some 0) ∧
    (∀ i t, i ≠ .halt → exec i s = .next t → t.running = s.running) ∧
    (∀ E : Enc, s.running = true →
      (s.pc.toNat ≤ 255 → E.lookup s.opcodeByte = some .halt → stepWith E s = exec .halt s) ∧
      (s.pc.toNat = 256 → stepWith E s = .fault (.outOfBounds .memFetch 256 s.pc)))

/-- LOAD_IMMEDIATE writes the immediate byte as it is to the register, R7 included, and changes nothing else but the
PC; its fatal conditions are the fetch of a missing operand byte and an invalid register (41 R101). Its byte `0x82` is
the default of the parameter `ENC`, general knowledge (D3; log 1, PRESUMED). -/
def Obligations.LoadImmediateWritesItsRegister : Prop :=
  ∀ (reg value : Byte) (s : State),
    encode (.loadImmediate reg value) = [0x82#8, reg, value] ∧
    (∀ r : Fin 8, reg.toNat = r.val → ∃ t, exec (.loadImmediate reg value) s = .next t ∧
      t.reg r = value ∧ (∀ j : Fin 8, j ≠ r → t.reg j = s.reg j) ∧ (∀ a, t.mem.read a = s.mem.read a) ∧
      t.out = s.out ∧ t.running = s.running ∧ (s.pc.toNat ≤ 253 → t.pc.toNat = s.pc.toNat + 3)) ∧
    (8 ≤ reg.toNat → exec (.loadImmediate reg value) s = .fault (.outOfBounds .regIndex reg.toNat s.pc)) ∧
    (∀ E : Enc, s.running = true → E.lookup s.opcodeByte = some .loadImmediate →
      (s.pc.toNat = 255 → stepWith E s = .fault (.outOfBounds .memFetch (s.pc.toNat + 1) s.pc)) ∧
      (s.pc.toNat = 254 → stepWith E s = .fault (.outOfBounds .memFetch (s.pc.toNat + 2) s.pc)))

/-- PRINT_REGISTER emits the 8-bit content of its register, R7 included, and changes nothing else but the PC; its
fatal conditions are the fetch of a missing operand byte and an invalid register (41 R102). Its byte `0x47` is the
default of the parameter `ENC`, general knowledge (D3; log 1, PRESUMED); that the sink shows the value as one decimal
line is decision D15 (log 12, DESIGN CHOICE). -/
def Obligations.PrintRegisterEmitsItsRegister : Prop :=
  ∀ (reg : Byte) (s : State),
    encode (.printRegister reg) = [0x47#8, reg] ∧
    (∀ r : Fin 8, reg.toNat = r.val → ∃ t, exec (.printRegister reg) s = .next t ∧
      t.out = s.out ++ [s.reg r] ∧ t.sinkLines = s.sinkLines ++ [toString (s.reg r).toNat] ∧
      (∀ j : Fin 8, t.reg j = s.reg j) ∧ (∀ a, t.mem.read a = s.mem.read a) ∧
      t.running = s.running ∧ (s.pc.toNat ≤ 254 → t.pc.toNat = s.pc.toNat + 2)) ∧
    (8 ≤ reg.toNat → exec (.printRegister reg) s = .fault (.outOfBounds .regIndex reg.toNat s.pc)) ∧
    (∀ E : Enc, s.running = true → E.lookup s.opcodeByte = some .printRegister → s.pc.toNat = 255 →
      stepWith E s = .fault (.outOfBounds .memFetch (s.pc.toNat + 1) s.pc))

/-- ADD writes the sum modulo 256 to its first register, both reads before the write, and changes nothing else but the
PC; overflow raises nothing; its fatal conditions are the fetch of a missing operand byte and an invalid register, the
first operand's reported first (42 R110). Its byte `0xA0` is the default of the parameter `ENC`, general knowledge
(D3; log 1, PRESUMED). -/
def Obligations.AddWrapsModulo256 : Prop :=
  ∀ (regA regB : Byte) (s : State),
    encode (.add regA regB) = [0xA0#8, regA, regB] ∧
    (∀ a b : Fin 8, regA.toNat = a.val → regB.toNat = b.val → ∃ t, exec (.add regA regB) s = .next t ∧
      (t.reg a).toNat = ((s.reg a).toNat + (s.reg b).toNat) % 256 ∧ (∀ j : Fin 8, j ≠ a → t.reg j = s.reg j) ∧
      (∀ c, t.mem.read c = s.mem.read c) ∧ t.out = s.out ∧ t.running = s.running ∧
      (s.pc.toNat ≤ 253 → t.pc.toNat = s.pc.toNat + 3)) ∧
    (8 ≤ regA.toNat → exec (.add regA regB) s = .fault (.outOfBounds .regIndex regA.toNat s.pc)) ∧
    (regA.toNat ≤ 7 → 8 ≤ regB.toNat → exec (.add regA regB) s = .fault (.outOfBounds .regIndex regB.toNat s.pc)) ∧
    (∀ E : Enc, s.running = true → E.lookup s.opcodeByte = some .add → (s.pc.toNat = 254 ∨ s.pc.toNat = 255) →
      stepWith E s = .fault (.outOfBounds .memFetch 256 s.pc))

/-- MULTIPLY writes the product modulo 256 to its first register, both reads before the write, and changes nothing
else but the PC; its fatal conditions are ADD's (42 R111). Its byte `0xA2` is the default of the parameter `ENC`,
general knowledge (D3; log 1, PRESUMED). -/
def Obligations.MultiplyWrapsModulo256 : Prop :=
  ∀ (regA regB : Byte) (s : State),
    encode (.multiply regA regB) = [0xA2#8, regA, regB] ∧
    (∀ a b : Fin 8, regA.toNat = a.val → regB.toNat = b.val → ∃ t, exec (.multiply regA regB) s = .next t ∧
      (t.reg a).toNat = ((s.reg a).toNat * (s.reg b).toNat) % 256 ∧ (∀ j : Fin 8, j ≠ a → t.reg j = s.reg j) ∧
      (∀ c, t.mem.read c = s.mem.read c) ∧ t.out = s.out ∧ t.running = s.running ∧
      (s.pc.toNat ≤ 253 → t.pc.toNat = s.pc.toNat + 3)) ∧
    (8 ≤ regA.toNat → exec (.multiply regA regB) s = .fault (.outOfBounds .regIndex regA.toNat s.pc)) ∧
    (regA.toNat ≤ 7 → 8 ≤ regB.toNat →
      exec (.multiply regA regB) s = .fault (.outOfBounds .regIndex regB.toNat s.pc)) ∧
    (∀ E : Enc, s.running = true → E.lookup s.opcodeByte = some .multiply →
      (s.pc.toNat = 254 ∨ s.pc.toNat = 255) → stepWith E s = .fault (.outOfBounds .memFetch 256 s.pc))

/-- PUSH decrements the stack pointer modulo 256 and stores the register, read after the decrement, in the cell it
then names; that cell, `x[7]` and the PC are all that changes, and no stack pointer makes it fault (20 R43, R44(b); 43
R120; the wrap is decision D8, the value stored by PUSH R7 the spec derives from the statement order, D11; log 4, log
5). -/
def Obligations.PushStoresBelowTheStackPointer : Prop :=
  ∀ (reg : Byte) (s : State), s.mem.wf = true →
    (∀ r : Fin 8, reg.toNat = r.val → ∃ t, exec (.push reg) s = .next t ∧
      (t.reg 7).toNat = ((s.reg 7).toNat + 255) % 256 ∧ (∀ j : Fin 8, j ≠ 7 → t.reg j = s.reg j) ∧
      t.mem.read (pushAddress s) = t.reg r ∧ pushAddress s = (t.reg 7).toNat ∧
      (∀ a, a ≠ pushAddress s → t.mem.read a = s.mem.read a) ∧
      t.out = s.out ∧ t.running = s.running ∧ (s.pc.toNat ≤ 254 → t.pc.toNat = s.pc.toNat + 2)) ∧
    (8 ≤ reg.toNat → exec (.push reg) s = .fault (.outOfBounds .regIndex reg.toNat s.pc))

/-- POP loads the cell the stack pointer names into its register and then increments the current `x[7]` modulo 256, so
that POP R7 ends with the loaded value plus 1; memory is unchanged; `x[7] = 0x00` raises `OutOfBounds(stack_read,
256)` (20 R43, R44(a); 43 R121; the underflow fault is decision D9, POP R7 the spec derives, D11; log 4, log 5). -/
def Obligations.PopLoadsFromTheStackPointer : Prop :=
  ∀ (reg : Byte) (s : State),
    (∀ r : Fin 8, reg.toNat = r.val → s.reg 7 ≠ 0#8 → ∃ t, exec (.pop reg) s = .next t ∧
      (r ≠ 7 → t.reg r = s.mem.read (s.reg 7).toNat ∧ (t.reg 7).toNat = ((s.reg 7).toNat + 1) % 256) ∧
      (r = 7 → (t.reg 7).toNat = ((s.mem.read (s.reg 7).toNat).toNat + 1) % 256) ∧
      (∀ j : Fin 8, j ≠ r → j ≠ 7 → t.reg j = s.reg j) ∧ (∀ a, t.mem.read a = s.mem.read a) ∧
      t.out = s.out ∧ t.running = s.running ∧ (s.pc.toNat ≤ 254 → t.pc.toNat = s.pc.toNat + 2)) ∧
    (reg.toNat ≤ 7 → s.reg 7 = 0#8 → exec (.pop reg) s = .fault (.outOfBounds .stackRead 256 s.pc)) ∧
    (8 ≤ reg.toNat → exec (.pop reg) s = .fault (.outOfBounds .regIndex reg.toNat s.pc))

/-- CALL pushes the address after its operand and loads the PC from its register, read after the decrement, adding
nothing; that cell, `x[7]` and the PC are all that changes; a return address of 256 raises
`OutOfBounds(return_address, 256)` (44 R130; 20 R43; the fault is decision D10, CALL R7 the spec derives, D11; log 5,
log 6). -/
def Obligations.CallPushesReturnAddressAndJumps : Prop :=
  ∀ (reg : Byte) (s : State), s.mem.wf = true →
    (∀ r : Fin 8, reg.toNat = r.val → s.pc.toNat ≤ 253 → ∃ t, exec (.call reg) s = .next t ∧
      (t.reg 7).toNat = ((s.reg 7).toNat + 255) % 256 ∧ (∀ j : Fin 8, j ≠ 7 → t.reg j = s.reg j) ∧
      (t.mem.read (pushAddress s)).toNat = s.pc.toNat + 2 ∧ pushAddress s = (t.reg 7).toNat ∧
      (∀ a, a ≠ pushAddress s → t.mem.read a = s.mem.read a) ∧
      t.out = s.out ∧ t.running = s.running ∧ t.pc.toNat = (t.reg r).toNat) ∧
    (reg.toNat ≤ 7 → s.pc.toNat = 254 → exec (.call reg) s = .fault (.outOfBounds .returnAddress 256 s.pc)) ∧
    (8 ≤ reg.toNat → exec (.call reg) s = .fault (.outOfBounds .regIndex reg.toNat s.pc))

/-- RETURN loads the PC from the cell the stack pointer names, adding nothing, and increments `x[7]` modulo 256;
memory is unchanged; `x[7] = 0x00` raises `OutOfBounds(stack_read, 256)` (44 R131; 20 R43, R44(a); the fault is
decision D9; log 4). -/
def Obligations.ReturnJumpsToTheTopOfStack : Prop :=
  ∀ s : State,
    (s.reg 7 ≠ 0#8 → ∃ t, exec .ret s = .next t ∧
      t.pc.toNat = (s.mem.read (s.reg 7).toNat).toNat ∧ (t.reg 7).toNat = ((s.reg 7).toNat + 1) % 256 ∧
      (∀ j : Fin 8, j ≠ 7 → t.reg j = s.reg j) ∧ (∀ a, t.mem.read a = s.mem.read a) ∧
      t.out = s.out ∧ t.running = s.running) ∧
    (s.reg 7 = 0#8 → exec .ret s = .fault (.outOfBounds .stackRead 256 s.pc))

/-! ### What instructions leave unchanged -/

/-- The "writes" column of the table "Register use (rule R11)", as the frame of all nine instructions: a register the
table does not list keeps its value (10 R11, whose width is decision D1). -/
def Obligations.OnlyListedRegistersAreWritten : Prop :=
  ∀ (i : Instr) (s t : State) (j : Fin 8), exec i s = .next t → writesReg i j = false → t.reg j = s.reg j

/-- The instructions that store nothing (HALT, LOAD_IMMEDIATE, PRINT_REGISTER, ADD, MULTIPLY, POP, RETURN) leave every
byte of memory (20 R32(c), (d)). -/
def Obligations.NonStoringInstructionsKeepMemory : Prop :=
  ∀ (i : Instr) (s t : State), i.op ≠ .push → i.op ≠ .call → exec i s = .next t →
    ∀ a, t.mem.read a = s.mem.read a

/-- PUSH and CALL leave every byte of memory but the one cell at the address they store to, `(x[7] - 1) mod 256` (20
R32(b); the wrap is decision D8). -/
def Obligations.StoringInstructionsWriteOneCell : Prop :=
  ∀ (i : Instr) (s t : State), (i.op = .push ∨ i.op = .call) → s.mem.wf = true → exec i s = .next t →
    ∀ a, a ≠ ((s.reg 7).toNat + 255) % 256 → t.mem.read a = s.mem.read a

/-- R15: every instruction but CALL and RETURN advances the PC by 1 plus its operand count; CALL and RETURN set it to
their absolute target and add nothing; a step that raises leaves the PC. -/
def Obligations.ProgramCounterUpdateTable : Prop :=
  (∀ (i : Instr) (s t : State), i.op ≠ .call → i.op ≠ .ret → s.pc.toNat + i.op.operandCount ≤ 255 →
    exec i s = .next t → t.pc.toNat = s.pc.toNat + 1 + i.op.operandCount) ∧
  (∀ (reg : Byte) (r : Fin 8) (s t : State), reg.toNat = r.val → exec (.call reg) s = .next t →
    t.pc = (s.decSp.reg r).setWidth 9) ∧
  (∀ s t : State, exec .ret s = .next t → t.pc = (s.mem.read (s.reg 7).toNat).setWidth 9) ∧
  (∀ (E : Enc) (n : Nat) (s : State) (f : Fault), s.running = true → stepWith E s = .fault f →
    ∃ u, runWith E (n + 1) s = .fatal f u ∧ u.pc = s.pc)

/-- R17: the Running flag is true after reset; the loop reads it before its fetch: where it is false nothing is
fetched and nothing raised, whatever the PC and memory hold; a step leaves it true unless the instruction is HALT,
which makes it false; no instruction but HALT writes it, reads it or is conditional on it. -/
def Obligations.RunningFlagIsClearedOnlyByHalt : Prop :=
  State.reset.running = true ∧
  (∀ (E : Enc) (s t : State), stepWith E s = .next t →
    s.running = true ∧ (t.running = false ↔ E.lookup s.opcodeByte = some .halt)) ∧
  (∀ (E : Enc) (n : Nat) (s : State), s.running = false → runWith E n s = .halted s) ∧
  (∀ (i : Instr) (s : State) (b : Bool),
    (∀ t, i ≠ .halt → exec i s = .next t → exec i { s with running := b } = .next { t with running := b }) ∧
    (∀ f, exec i s = .fault f → exec i { s with running := b } = .fault f))

/-- The output sequence grows by exactly the printed register in a step of PRINT_REGISTER and is unchanged by every
other step (10 R10, R21; 41 R102). -/
def Obligations.OutputGrowsOnlyByPrintRegister : Prop :=
  ∀ (E : Enc) (s t : State), stepWith E s = .next t →
    (E.lookup s.opcodeByte ≠ some .printRegister → t.out = s.out) ∧
    (E.lookup s.opcodeByte = some .printRegister →
      ∃ r : Fin 8, (s.mem.read (s.pc.toNat + 1)).toNat = r.val ∧ t.out = s.out ++ [s.reg r])

/-- No instruction reads the output sequence: a step from two states that differ only in it does the same, and appends
the same values (10 R21). -/
def Obligations.OutputIsNeverRead : Prop :=
  ∀ (E : Enc) (s : State) (o : List Byte),
    (∀ t, stepWith E s = .next t → ∃ new, t.out = s.out ++ new ∧
      stepWith E { s with out := o } = .next { t with out := o ++ new }) ∧
    (∀ f, stepWith E s = .fault f → stepWith E { s with out := o } = .fault f)

/-- During a run memory is written by PUSH and CALL only, and by each in one cell (10 R20; 20 R32). -/
def Obligations.MemoryIsWrittenOnlyByPushAndCall : Prop :=
  ∀ (E : Enc) (s t : State), s.Inv → stepWith E s = .next t → t.mem ≠ s.mem →
    (E.lookup s.opcodeByte = some .push ∨ E.lookup s.opcodeByte = some .call) ∧
    ∃ v : Byte, t.mem = s.mem.write (((s.reg 7).toNat + 255) % 256) v

/-! ### Laws across instructions -/

/-- PUSH then POP of the same register, R7 included, restores every register; the one exception is a stack pointer of
1, where the push leaves `0x00` and the pop raises (the document's property S2 of 95_test_vectors.md; 43 R120, R121;
the exception is decision D9). -/
def Obligations.PushThenPopRestoresRegisters : Prop :=
  ∀ (reg : Byte) (s : State), s.mem.wf = true → reg.toNat ≤ 7 →
    ∃ t, exec (.push reg) s = .next t ∧
      (s.reg 7 ≠ 1#8 → ∃ u, exec (.pop reg) t = .next u ∧ (∀ j : Fin 8, u.reg j = s.reg j) ∧
        (∀ a, a ≠ pushAddress s → u.mem.read a = s.mem.read a)) ∧
      (s.reg 7 = 1#8 → exec (.pop reg) t = .fault (.outOfBounds .stackRead 256 t.pc))

/-- CALL then RETURN, with the stack pointer and the pushed cell intact in between, restores the PC to the address
after the CALL and the stack pointer to its value before it; the one exception is a stack pointer of 1, where RETURN
raises (the document's property S3 of 95_test_vectors.md; 44 R130, R131; the exception is decision D9). -/
def Obligations.CallThenReturnRestoresPcAndSp : Prop :=
  ∀ (reg : Byte) (s : State), s.mem.wf = true → reg.toNat ≤ 7 → s.pc.toNat ≤ 253 →
    ∃ t, exec (.call reg) s = .next t ∧
      ∀ u : State, u.reg 7 = t.reg 7 → u.mem.read (pushAddress s) = t.mem.read (pushAddress s) →
        (s.reg 7 ≠ 1#8 → ∃ v, exec .ret u = .next v ∧ v.pc.toNat = s.pc.toNat + 2 ∧ v.reg 7 = s.reg 7) ∧
        (s.reg 7 = 1#8 → exec .ret u = .fault (.outOfBounds .stackRead 256 u.pc))

/-- A store is seen by the very next fetch: if the cell a PUSH or CALL has written is the one the PC then names, the
next step looks up the byte stored and is the handler of whatever entry that byte has, with the bytes after it, or
raises for want of an entry or of an operand byte (20 R41, which the spec derives; 40 R80). -/
def Obligations.StoreIsSeenByTheNextFetch : Prop :=
  ∀ (E : Enc) (i : Instr) (s t : State), (i.op = .push ∨ i.op = .call) → s.mem.wf = true →
    exec i s = .next t → t.pc.toNat = pushAddress s → t.running = true →
    (E.lookup (t.mem.read (pushAddress s)) = none →
      stepWith E t = .fault (.unknownOpcode (t.mem.read (pushAddress s)) t.pc)) ∧
    (∀ o, E.lookup (t.mem.read (pushAddress s)) = some o →
      (pushAddress s + o.operandCount ≤ 255 →
        stepWith E t = exec (o.instr (t.mem.read (pushAddress s + 1)) (t.mem.read (pushAddress s + 2))) t) ∧
      (256 ≤ pushAddress s + o.operandCount → stepWith E t = .fault (.outOfBounds .memFetch 256 t.pc))) ∧
    (∀ reg, i = .push reg → ∀ r : Fin 8, reg.toNat = r.val → t.mem.read (pushAddress s) = t.reg r) ∧
    (i.op = .call → (t.mem.read (pushAddress s)).toNat = s.pc.toNat + 2)

/-- R74: `get(i)` returns `x[i]`; `get` after `set` gives the value set, the other seven registers are unchanged, and
an index of 8 or more never reaches the file: `CheckReg` has raised `OutOfBounds(reg_index, byte)` first, whatever the
handler would do. -/
def Obligations.RegisterFileContract : Prop :=
  (∀ (s : State) (i : Fin 8) (v : Byte), s.reg i = s.x[i] ∧ (s.setReg i v).reg i = v ∧
    ∀ j : Fin 8, j ≠ i → (s.setReg i v).reg j = s.reg j) ∧
  (∀ (b : Byte) (s : State) (k : Fin 8 → StepOutcome),
    (8 ≤ b.toNat → withReg b s k = .fault (.outOfBounds .regIndex b.toNat s.pc)) ∧
    (∀ r : Fin 8, b.toNat = r.val → withReg b s k = k r))

/-- The arithmetic laws at the four places the machine computes: sum, product, stack-pointer decrement and increment
are the true results reduced modulo 256 (42 R112; 40 R75; the width is decision D1). -/
def Obligations.ArithmeticIsModulo256 : Prop :=
  (∀ a b : Byte, (alu .add a b).toNat = (a.toNat + b.toNat) % 256) ∧
  (∀ a b : Byte, (alu .mul a b).toNat = (a.toNat * b.toNat) % 256) ∧
  (∀ s : State, (s.decSp.reg 7).toNat = ((s.reg 7).toNat + 255) % 256) ∧
  (∀ s : State, (s.incSp.reg 7).toNat = ((s.reg 7).toNat + 1) % 256)

/-- Canonical memories that read alike are equal data, so states compare by what they hold (the model's
representation, log 8; 20 R35). -/
def Obligations.MemoriesThatReadAlikeAreEqual : Prop :=
  ∀ m n : Memory, m.wf = true → n.wf = true → (∀ a, a < 256 → m.read a = n.read a) → m = n
end

