-- ==== Sys2Proof/Laws/Decode.lean ====
section
/-!
SUPPORT. What the dispatch table, the decoder and the encoder do, said once.
-/

namespace Sys2Proof

/-- The table answers an entry only for the entry's own byte. -/
theorem Enc.byte_of_lookup {E : Enc} {b : Byte} {o : Op} (h : E.lookup b = some o) : E.byte o = b := by
  simpa using List.find?_some h

/-- Every identity is in the list of nine. -/
theorem Op.mem_all (o : Op) : o ∈ Op.all := by cases o <;> simp [Op.all]

/-- The table answers none exactly for the bytes no instruction has. -/
theorem Enc.lookup_eq_none {E : Enc} {b : Byte} : E.lookup b = none ↔ ∀ o, E.byte o ≠ b := by
  simp [Enc.lookup, List.find?_eq_none, Op.mem_all]

/-- Under a valid map two identities with one byte are one. -/
theorem Enc.Valid.byte_injective {E : Enc} (h : E.Valid) {o p : Op} (hb : E.byte o = E.byte p) : o = p :=
  List.inj_on_of_nodup_map h.1 (Op.mem_all o) (Op.mem_all p) hb

/-- Under a valid map the table answers each byte's own instruction. -/
theorem Enc.Valid.lookup_byte {E : Enc} (h : E.Valid) (o : Op) : E.lookup (E.byte o) = some o := by
  cases hl : E.lookup (E.byte o) with
  | none => exact absurd rfl (Enc.lookup_eq_none.mp hl o)
  | some p => rw [h.byte_injective (Enc.byte_of_lookup hl)]

/-- The identity of the instruction an identity makes. -/
@[simp] theorem Op.op_instr (o : Op) (b1 b2 : Byte) : (o.instr b1 b2).op = o := by cases o <;> rfl

/-- An instruction has as many operand bytes as its table entry says. -/
theorem Instr.length_operands (i : Instr) : i.operands.length = i.op.operandCount := by cases i <;> rfl

/-- No opcode byte. -/
theorem decodeWith_nil (E : Enc) : decodeWith E [] = .error (.missingByte 0) := rfl

/-- A byte with no table entry: nothing after it is looked at (R57, R58). -/
theorem decodeWith_unknown {E : Enc} {b : Byte} (h : E.lookup b = none) (bs : List Byte) :
    decodeWith E (b :: bs) = .error (.unknownOpcode b) := by simp only [decodeWith, h]

/-- If the decoder answers an instruction, the bytes are its opcode byte, its operand bytes and the rest. -/
theorem decodeWith_ok {E : Enc} {bytes : List Byte} {i : Instr} {rest : List Byte}
    (h : decodeWith E bytes = .ok (i, rest)) :
    ∃ b, bytes = b :: (i.operands ++ rest) ∧ E.lookup b = some i.op := by
  cases bytes with
  | nil => cases h
  | cons b0 bs =>
    cases hl : E.lookup b0 with
    | none => rw [decodeWith_unknown hl] at h; cases h
    | some o =>
      refine ⟨b0, ?_⟩
      simp only [decodeWith, hl] at h
      cases o <;> rcases bs with _ | ⟨b1, _ | ⟨b2, bs⟩⟩ <;>
        simp only [Op.format, Except.ok.injEq, Prod.mk.injEq, reduceCtorEq] at h <;>
        obtain ⟨rfl, rfl⟩ := h <;> simp [Op.instr, Instr.operands, Instr.op, hl]

end Sys2Proof
end

