-- ==== Sys2Proof/Laws/Memory.lean ====
section
/-!
SUPPORT. The canonical form of memory: what it says of a read, and that every memory operation keeps it.
-/

namespace Sys2Proof.Machine

/-- Below the lower bound of a canonical memory every cell reads `0x00`. -/
theorem Memory.read_below {m : Memory} {lo a : Nat} (h : m.wfFrom lo = true) (ha : a < lo) : m.read a = 0#8 := by
  induction m generalizing lo with
  | nil => rfl
  | cons c rest ih =>
    obtain ⟨b, w⟩ := c
    simp only [Memory.wfFrom, Bool.and_eq_true, decide_eq_true_eq] at h
    have hne : a ≠ b := by omega
    simp only [Memory.read, if_neg hne]
    exact ih h.2 (by omega)

/-- Lowering the bound keeps the form. -/
theorem Memory.wfFrom_mono {m : Memory} {lo lo' : Nat} (h : m.wfFrom lo = true) (hl : lo' ≤ lo) :
    m.wfFrom lo' = true := by
  cases m with
  | nil => rfl
  | cons c rest =>
    obtain ⟨b, w⟩ := c
    simp only [Memory.wfFrom, Bool.and_eq_true, decide_eq_true_eq] at h ⊢
    exact ⟨⟨⟨by omega, h.1.1.2⟩, h.1.2⟩, h.2⟩

/-- A write to a cell keeps the canonical form, from any bound at or below the address. -/
theorem Memory.wfFrom_write {m : Memory} {lo a : Nat} (v : Byte) (h : m.wfFrom lo = true) (hl : lo ≤ a)
    (ha : a < 256) : (m.write a v).wfFrom lo = true := by
  induction m generalizing lo with
  | nil =>
    by_cases hv : v = 0#8
    · simp [Memory.write, hv, Memory.wfFrom]
    · simp [Memory.write, hv, Memory.wfFrom, hl, ha]
  | cons c rest ih =>
    obtain ⟨b, w⟩ := c
    have h' := h
    simp only [Memory.wfFrom, Bool.and_eq_true, decide_eq_true_eq] at h'
    obtain ⟨⟨⟨hb, hb'⟩, hw⟩, hr⟩ := h'
    by_cases hab : a < b
    · by_cases hv : v = 0#8
      · simp [Memory.write, hab, hv, h]
      · simp [Memory.write, hab, hv, Memory.wfFrom, hl, ha, hb', hr, show a + 1 ≤ b from hab]
        simpa using hw
    · by_cases heq : a = b
      · subst heq
        by_cases hv : v = 0#8
        · simp only [Memory.write, hab, hv, if_true, if_false]
          exact Memory.wfFrom_mono hr (by omega)
        · simp [Memory.write, hv, Memory.wfFrom, hl, ha, hr]
      · simp only [Memory.write, hab, heq, if_false, Memory.wfFrom, Bool.and_eq_true, decide_eq_true_eq]
        exact ⟨⟨⟨hb, hb'⟩, hw⟩, ih hr (by omega)⟩

/-- A write to a cell keeps the canonical form. -/
theorem Memory.wf_write {m : Memory} {a : Nat} (v : Byte) (h : m.wf = true) (ha : a < 256) :
    (m.write a v).wf = true := Memory.wfFrom_write v h (Nat.zero_le a) ha

/-- A read after a write, from any bound: the cell written gives the value, every other cell what it gave before. -/
theorem Memory.read_write_from {m : Memory} {lo : Nat} (h : m.wfFrom lo = true) (a : Nat) (v : Byte) (b : Nat) :
    (m.write a v).read b = if b = a then v else m.read b := by
  induction m generalizing lo with
  | nil =>
    by_cases hv : v = 0#8
    · simp [Memory.write, hv, Memory.read]
    · simp [Memory.write, hv, Memory.read]
  | cons c rest ih =>
    obtain ⟨d, w⟩ := c
    simp only [Memory.wfFrom, Bool.and_eq_true, decide_eq_true_eq] at h
    obtain ⟨-, hr⟩ := h
    by_cases had : a < d
    · by_cases hv : v = 0#8
      · have hlow : Memory.read ((d, w) :: rest) a = 0#8 := by
          simp only [Memory.read, if_neg (show a ≠ d by omega)]
          exact Memory.read_below hr (by omega)
        by_cases hb : b = a
        · subst hb
          simp [Memory.write, had, hv, hlow]
        · simp [Memory.write, had, hv, hb]
      · simp [Memory.write, had, hv, Memory.read]
    · by_cases heq : a = d
      · subst heq
        by_cases hv : v = 0#8
        · by_cases hb : b = a
          · subst hb
            simp [Memory.write, hv, Memory.read_below hr (Nat.lt_succ_self b)]
          · simp [Memory.write, hv, Memory.read, hb]
        · by_cases hb : b = a <;> simp [Memory.write, hv, Memory.read, hb]
      · by_cases hb : b = d
        · subst hb
          simp [Memory.write, had, heq, Memory.read, Ne.symm heq]
        · simp [Memory.write, had, heq, Memory.read, hb, ih hr]

/-- A read after a write (R35). -/
theorem Memory.read_write {m : Memory} (h : m.wf = true) (a : Nat) (v : Byte) (b : Nat) :
    (m.write a v).read b = if b = a then v else m.read b := Memory.read_write_from h a v b

/-- The bytes of an image that fits keep the canonical form. -/
theorem Memory.wf_writeBytes {m : Memory} (bytes : List Byte) {a : Nat} (h : m.wf = true)
    (ha : a + bytes.length ≤ 256) : (m.writeBytes a bytes).wf = true := by
  induction bytes generalizing m a with
  | nil => exact h
  | cons b bs ih =>
    simp only [List.length_cons] at ha
    exact ih (Memory.wf_write b h (by omega)) (by omega)

/-- The bytes read from `a` on, written out: as many as fit below 256. -/
theorem Memory.bytesFrom_succ (m : Memory) (a n : Nat) :
    m.bytesFrom a (n + 1) = if a < 256 then m.read a :: m.bytesFrom (a + 1) n else [] := rfl

end Sys2Proof.Machine
end

