-- ==== Sys2Proof/Laws/State.lean ====
section
/-!
SUPPORT. The record updates of State: one lemma per field per update, so that no proof unfolds one.
-/

namespace Sys2Proof.Machine

section setReg
variable (s : State) (i : Fin 8) (v : Byte)
@[simp] theorem State.setReg_mem : (s.setReg i v).mem = s.mem := rfl
@[simp] theorem State.setReg_pc : (s.setReg i v).pc = s.pc := rfl
@[simp] theorem State.setReg_running : (s.setReg i v).running = s.running := rfl
@[simp] theorem State.setReg_out : (s.setReg i v).out = s.out := rfl

/-- The register file's contract (R74). -/
theorem State.reg_setReg (j : Fin 8) : (s.setReg i v).reg j = if i = j then v else s.reg j := by
  simp [State.setReg, State.reg, Vector.getElem_set, Fin.ext_iff]
end setReg

section sp
variable (s : State)
@[simp] theorem State.decSp_mem : s.decSp.mem = s.mem := rfl
@[simp] theorem State.decSp_pc : s.decSp.pc = s.pc := rfl
@[simp] theorem State.decSp_running : s.decSp.running = s.running := rfl
@[simp] theorem State.decSp_out : s.decSp.out = s.out := rfl
@[simp] theorem State.incSp_mem : s.incSp.mem = s.mem := rfl
@[simp] theorem State.incSp_pc : s.incSp.pc = s.pc := rfl
@[simp] theorem State.incSp_running : s.incSp.running = s.running := rfl
@[simp] theorem State.incSp_out : s.incSp.out = s.out := rfl

theorem State.reg_decSp (j : Fin 8) : s.decSp.reg j = if j = 7 then s.reg 7 - 1 else s.reg j := by
  simp [State.decSp, State.sp, State.reg_setReg, eq_comm]

theorem State.reg_incSp (j : Fin 8) : s.incSp.reg j = if j = 7 then s.reg 7 + 1 else s.reg j := by
  simp [State.incSp, State.sp, State.reg_setReg, eq_comm]
end sp

section pc
variable (s : State) (n : Nat) (t : Byte)
@[simp] theorem State.advance_mem : (s.advance n).mem = s.mem := rfl
@[simp] theorem State.advance_x : (s.advance n).x = s.x := rfl
@[simp] theorem State.advance_pc : (s.advance n).pc = BitVec.ofNat 9 (s.pc.toNat + n) := rfl
@[simp] theorem State.advance_running : (s.advance n).running = s.running := rfl
@[simp] theorem State.advance_out : (s.advance n).out = s.out := rfl
@[simp] theorem State.advance_reg (j : Fin 8) : (s.advance n).reg j = s.reg j := rfl
@[simp] theorem State.loadPc_mem : (s.loadPc t).mem = s.mem := rfl
@[simp] theorem State.loadPc_x : (s.loadPc t).x = s.x := rfl
@[simp] theorem State.loadPc_pc : (s.loadPc t).pc = t.setWidth 9 := rfl
@[simp] theorem State.loadPc_running : (s.loadPc t).running = s.running := rfl
@[simp] theorem State.loadPc_out : (s.loadPc t).out = s.out := rfl
@[simp] theorem State.loadPc_reg (j : Fin 8) : (s.loadPc t).reg j = s.reg j := rfl
end pc

section emit
variable (s : State) (v : Byte)
@[simp] theorem State.emit_mem : (s.emit v).mem = s.mem := rfl
@[simp] theorem State.emit_x : (s.emit v).x = s.x := rfl
@[simp] theorem State.emit_pc : (s.emit v).pc = s.pc := rfl
@[simp] theorem State.emit_running : (s.emit v).running = s.running := rfl
@[simp] theorem State.emit_out : (s.emit v).out = s.out ++ [v] := rfl
@[simp] theorem State.emit_reg (j : Fin 8) : (s.emit v).reg j = s.reg j := rfl
end emit

section clearRunning
variable (s : State)
@[simp] theorem State.clearRunning_mem : s.clearRunning.mem = s.mem := rfl
@[simp] theorem State.clearRunning_x : s.clearRunning.x = s.x := rfl
@[simp] theorem State.clearRunning_pc : s.clearRunning.pc = s.pc := rfl
@[simp] theorem State.clearRunning_running : s.clearRunning.running = false := rfl
@[simp] theorem State.clearRunning_out : s.clearRunning.out = s.out := rfl
@[simp] theorem State.clearRunning_reg (j : Fin 8) : s.clearRunning.reg j = s.reg j := rfl
end clearRunning

section store
variable (s : State) (a : Nat) (v : Byte)
@[simp] theorem State.store_mem : (s.store a v).mem = s.mem.write a v := rfl
@[simp] theorem State.store_x : (s.store a v).x = s.x := rfl
@[simp] theorem State.store_pc : (s.store a v).pc = s.pc := rfl
@[simp] theorem State.store_running : (s.store a v).running = s.running := rfl
@[simp] theorem State.store_out : (s.store a v).out = s.out := rfl
@[simp] theorem State.store_reg (j : Fin 8) : (s.store a v).reg j = s.reg j := rfl
end store

end Sys2Proof.Machine
end

