-- ==== Sys2Proof/Laws/Ops.lean ====
section
/-!
SUPPORT. What each shared operation can do, said once: for an operation that can raise, when the whole answers next,
a fault or a refusal; for one that cannot, what it continues with.
-/

namespace Sys2Proof.Machine

/-! ### CheckReg -/

/-- A valid operand byte: the handler goes on with the index it names. -/
theorem withReg_valid {b : Byte} (h : b.toNat < 8) (s : State) (k : Fin 8 → StepOutcome) :
    withReg b s k = k ⟨b.toNat, h⟩ := dif_pos h

/-- An invalid operand byte: the report of R54. -/
theorem withReg_invalid {b : Byte} (h : 8 ≤ b.toNat) (s : State) (k : Fin 8 → StepOutcome) :
    withReg b s k = .fault (.outOfBounds .regIndex b.toNat s.pc) := dif_neg (Nat.not_lt.mpr h)

theorem withReg_eq_next {b : Byte} {s t : State} {k : Fin 8 → StepOutcome} :
    withReg b s k = .next t ↔ ∃ h : b.toNat < 8, k ⟨b.toNat, h⟩ = .next t := by
  by_cases hb : b.toNat < 8
  · simp [withReg_valid hb, hb]
  · simp [withReg_invalid (Nat.not_lt.mp hb), hb]

theorem withReg_eq_fault {b : Byte} {s : State} {k : Fin 8 → StepOutcome} {f : Fault} :
    withReg b s k = .fault f ↔
      (8 ≤ b.toNat ∧ f = .outOfBounds .regIndex b.toNat s.pc) ∨ ∃ h : b.toNat < 8, k ⟨b.toNat, h⟩ = .fault f := by
  by_cases hb : b.toNat < 8
  · simp [withReg_valid hb, hb, Nat.not_le.mpr hb]
  · simp [withReg_invalid (Nat.not_lt.mp hb), hb, Nat.not_lt.mp hb, eq_comm]

theorem withReg_eq_refused {b : Byte} {s : State} {k : Fin 8 → StepOutcome} {r : Refusal} :
    withReg b s k = .refused r ↔ ∃ h : b.toNat < 8, k ⟨b.toNat, h⟩ = .refused r := by
  by_cases hb : b.toNat < 8
  · simp [withReg_valid hb, hb]
  · simp [withReg_invalid (Nat.not_lt.mp hb), hb]

/-! ### Memory accesses -/

/-- A data address is 8 bits, so a data read never leaves memory (R142). -/
theorem memRead_byte (a : Byte) (s : State) (k : Byte → StepOutcome) :
    memRead a.toNat s k = k (s.mem.read a.toNat) := by
  have := a.isLt
  exact if_neg (by simp only [Config.N]; omega)

/-- A data address is 8 bits, so a data write never leaves memory (R142). -/
theorem memWrite_byte (a v : Byte) (s : State) (k : State → StepOutcome) :
    memWrite a.toNat v s k = k (s.store a.toNat v) := by
  have := a.isLt
  exact if_neg (by simp only [Config.N]; omega)

/-- The address a push writes is a cell. -/
theorem pushAddress_lt (s : State) : pushAddress s < 256 := (s.sp - 1).isLt

/-- The address a push writes, as a natural number. -/
theorem pushAddress_eq (s : State) : pushAddress s = ((s.reg 7).toNat + 255) % 256 := by
  have h : ∀ b : Byte, (b - 1).toNat = (b.toNat + 255) % 256 := by intro b; bv_omega
  exact h (s.reg 7)

/-- A push always goes on: the stack pointer is decremented and one cell is written (R44(b)). -/
theorem pushByte_eq (v : State → Byte) (s : State) (k : State → StepOutcome) :
    pushByte v s k = k (s.decSp.store (pushAddress s) (v s.decSp)) :=
  memWrite_byte (s.sp - 1) (v s.decSp) s.decSp k

/-! ### The tests of POP, RETURN and CALL -/

theorem checkStack_eq_next {s t : State} {k : StepOutcome} :
    checkStack s k = .next t ↔ s.sp ≠ 0#8 ∧ k = .next t := by
  by_cases h : s.sp = 0#8 <;> simp [checkStack, raise, h]

theorem checkStack_eq_fault {s : State} {k : StepOutcome} {f : Fault} :
    checkStack s k = .fault f ↔
      (s.sp = 0#8 ∧ f = .outOfBounds .stackRead 256 s.pc) ∨ (s.sp ≠ 0#8 ∧ k = .fault f) := by
  by_cases h : s.sp = 0#8 <;> simp [checkStack, raise, h, eq_comm]

theorem checkStack_eq_refused {s : State} {k : StepOutcome} {r : Refusal} :
    checkStack s k = .refused r ↔ s.sp ≠ 0#8 ∧ k = .refused r := by
  by_cases h : s.sp = 0#8 <;> simp [checkStack, raise, h]

theorem checkReturnAddress_eq_next {s t : State} {k : Byte → StepOutcome} :
    checkReturnAddress s k = .next t ↔ s.pc.toNat ≤ 253 ∧ k (BitVec.ofNat 8 (s.pc.toNat + 2)) = .next t := by
  by_cases h : 256 ≤ s.pc.toNat + 2
  · simp [checkReturnAddress, raise, h]; omega
  · simp [checkReturnAddress, h]; omega

theorem checkReturnAddress_eq_fault {s : State} {k : Byte → StepOutcome} {f : Fault} :
    checkReturnAddress s k = .fault f ↔
      (254 ≤ s.pc.toNat ∧ f = .outOfBounds .returnAddress (s.pc.toNat + 2) s.pc) ∨
        (s.pc.toNat ≤ 253 ∧ k (BitVec.ofNat 8 (s.pc.toNat + 2)) = .fault f) := by
  by_cases h : 256 ≤ s.pc.toNat + 2
  · simp [checkReturnAddress, raise, h, show 254 ≤ s.pc.toNat by omega, show ¬ s.pc.toNat ≤ 253 by omega, eq_comm]
  · simp [checkReturnAddress, h, show ¬ 254 ≤ s.pc.toNat by omega, show s.pc.toNat ≤ 253 by omega]

theorem checkReturnAddress_eq_refused {s : State} {k : Byte → StepOutcome} {r : Refusal} :
    checkReturnAddress s k = .refused r ↔
      s.pc.toNat ≤ 253 ∧ k (BitVec.ofNat 8 (s.pc.toNat + 2)) = .refused r := by
  by_cases h : 256 ≤ s.pc.toNat + 2
  · simp [checkReturnAddress, raise, h]; omega
  · simp [checkReturnAddress, h]; omega

end Sys2Proof.Machine
end

