-- ==== Sys2Proof/Laws/Exec.lean ====
section
/-!
SUPPORT. When each meaning answers next, and with what, and what any of them can raise: the inversion lemmas that later proofs cite instead of
unfolding a meaning. The index a valid operand byte names is written `⟨reg.toNat, h⟩`.
-/

namespace Sys2Proof.Machine

/-- The next state an outcome names, on the left. -/
theorem next_eq_next {s t : State} : (Host.Outcome.next s : StepOutcome) = .next t ↔ t = s :=
  ⟨fun h => by cases h; rfl, fun h => by rw [h]⟩

variable {s t : State} {reg value regA regB : Byte}

theorem exec_halt_next : exec .halt s = .next t ↔ t = s.clearRunning.advance 1 := by
  simp only [exec, execHalt, next_eq_next]

theorem exec_loadImmediate_next : exec (.loadImmediate reg value) s = .next t ↔
    ∃ h : reg.toNat < 8, t = (s.setReg ⟨reg.toNat, h⟩ value).advance 3 := by
  simp only [exec, execLoadImmediate, withReg_eq_next, next_eq_next]

theorem exec_printRegister_next : exec (.printRegister reg) s = .next t ↔
    ∃ h : reg.toNat < 8, t = (s.emit (s.reg ⟨reg.toNat, h⟩)).advance 2 := by
  simp only [exec, execPrintRegister, withReg_eq_next, next_eq_next]

theorem aluRegReg_next {op : AluOp} : aluRegReg op regA regB s = .next t ↔
    ∃ (a : regA.toNat < 8) (b : regB.toNat < 8),
      t = (s.setReg ⟨regA.toNat, a⟩ (alu op (s.reg ⟨regA.toNat, a⟩) (s.reg ⟨regB.toNat, b⟩))).advance 3 := by
  simp only [aluRegReg, withReg_eq_next, next_eq_next]

theorem exec_add_next : exec (.add regA regB) s = .next t ↔
    ∃ (a : regA.toNat < 8) (b : regB.toNat < 8),
      t = (s.setReg ⟨regA.toNat, a⟩ (alu .add (s.reg ⟨regA.toNat, a⟩) (s.reg ⟨regB.toNat, b⟩))).advance 3 :=
  aluRegReg_next

theorem exec_multiply_next : exec (.multiply regA regB) s = .next t ↔
    ∃ (a : regA.toNat < 8) (b : regB.toNat < 8),
      t = (s.setReg ⟨regA.toNat, a⟩ (alu .mul (s.reg ⟨regA.toNat, a⟩) (s.reg ⟨regB.toNat, b⟩))).advance 3 :=
  aluRegReg_next

theorem exec_push_next : exec (.push reg) s = .next t ↔
    ∃ h : reg.toNat < 8,
      t = (s.decSp.store (pushAddress s) (s.decSp.reg ⟨reg.toNat, h⟩)).advance 2 := by
  simp only [exec, execPush, withReg_eq_next, pushByte_eq, next_eq_next]

theorem exec_pop_next : exec (.pop reg) s = .next t ↔
    ∃ h : reg.toNat < 8, s.sp ≠ 0#8 ∧
      t = (s.setReg ⟨reg.toNat, h⟩ (s.mem.read s.sp.toNat)).incSp.advance 2 := by
  simp only [exec, execPop, withReg_eq_next, checkStack_eq_next, memRead_byte, next_eq_next]

theorem exec_call_next : exec (.call reg) s = .next t ↔
    ∃ h : reg.toNat < 8, s.pc.toNat ≤ 253 ∧
      t = (s.decSp.store (pushAddress s) (BitVec.ofNat 8 (s.pc.toNat + 2))).loadPc (s.decSp.reg ⟨reg.toNat, h⟩) := by
  simp only [exec, execCall, withReg_eq_next, checkReturnAddress_eq_next, pushByte_eq, State.store_reg, next_eq_next]

theorem exec_ret_next : exec .ret s = .next t ↔ s.sp ≠ 0#8 ∧ t = s.incSp.loadPc (s.mem.read s.sp.toNat) := by
  simp only [exec, execRet, checkStack_eq_next, memRead_byte, next_eq_next]

/-- What a handler can raise, and when (R142, R145(5) to (7)). -/
theorem exec_fault {i : Instr} {s : State} {f : Fault} (h : exec i s = .fault f) :
    (∃ b, i.regOperands.find? (fun c => !validReg c) = some b ∧ 8 ≤ b.toNat ∧
      f = .outOfBounds .regIndex b.toNat s.pc) ∨
    (i.WF ∧ (i.op = .pop ∨ i.op = .ret) ∧ s.sp = 0#8 ∧ f = .outOfBounds .stackRead 256 s.pc) ∨
    (i.WF ∧ i.op = .call ∧ 254 ≤ s.pc.toNat ∧ f = .outOfBounds .returnAddress (s.pc.toNat + 2) s.pc) := by
  cases i <;>
    simp [exec, execHalt, execLoadImmediate, execPrintRegister, execAdd, execMultiply, aluRegReg, execPush, execPop,
      execCall, execRet, withReg_eq_fault, checkStack_eq_fault, checkReturnAddress_eq_fault, pushByte_eq,
      memRead_byte, Instr.regOperands, Instr.op, validReg, List.find?_cons] at h ⊢
  case pop | call =>
    rcases h with ⟨h, rfl⟩ | ⟨h, h', rfl⟩
    · exact .inl ⟨_, by rw [decide_eq_false (Nat.not_lt.mpr h)]; rfl, h, rfl⟩
    · exact .inr ⟨by simp [Instr.WF, Instr.wf, Instr.regOperands, validReg, h'], h, rfl⟩
  case add | multiply =>
    rcases h with ⟨h, rfl⟩ | ⟨h, h', rfl⟩
    · exact ⟨_, by rw [decide_eq_false (Nat.not_lt.mpr h)]; rfl, h, rfl⟩
    · exact ⟨_, by rw [decide_eq_true h', decide_eq_false (Nat.not_lt.mpr h)]; rfl, h, rfl⟩
  case ret => exact ⟨rfl, h⟩
  all_goals exact ⟨_, by rw [decide_eq_false (Nat.not_lt.mpr h.1)]; rfl, h⟩

end Sys2Proof.Machine
end

