-- ==== Sys2Proof/Laws/PerInstr.lean ====
section
/-!
SUPPORT. A statement about every instruction as syntax, one lemma per constructor.
-/

namespace Sys2Proof.Laws.EncodeShape

/-- Under every opcode map an instruction is encoded as its opcode byte and as many operand bytes as its table entry
says, and its register operands are among them (R50, R53, R57). -/
def Statement (i : Instr) : Prop :=
  ∀ E : Enc, (encodeWith E i).head? = some (E.byte i.op) ∧ (encodeWith E i).length = 1 + i.op.operandCount ∧
    ∀ b ∈ i.regOperands, b ∈ i.operands

/-- What the lemmas below share: only the register operands are left to look at. -/
theorem of_regOperands {i : Instr} (h : ∀ b ∈ i.regOperands, b ∈ i.operands) : Statement i :=
  fun _ => ⟨rfl, by simp [encodeWith, i.length_operands, Nat.add_comm], h⟩

theorem halt : Statement .halt := of_regOperands (by simp [Instr.regOperands])
theorem loadImmediate (reg value : Byte) : Statement (.loadImmediate reg value) :=
  of_regOperands (by simp [Instr.regOperands, Instr.operands])
theorem printRegister (reg : Byte) : Statement (.printRegister reg) :=
  of_regOperands (by simp [Instr.regOperands, Instr.operands])
theorem add (regA regB : Byte) : Statement (.add regA regB) :=
  of_regOperands (by simp [Instr.regOperands, Instr.operands])
theorem multiply (regA regB : Byte) : Statement (.multiply regA regB) :=
  of_regOperands (by simp [Instr.regOperands, Instr.operands])
theorem push (reg : Byte) : Statement (.push reg) := of_regOperands (by simp [Instr.regOperands, Instr.operands])
theorem pop (reg : Byte) : Statement (.pop reg) := of_regOperands (by simp [Instr.regOperands, Instr.operands])
theorem call (reg : Byte) : Statement (.call reg) := of_regOperands (by simp [Instr.regOperands, Instr.operands])
theorem ret : Statement .ret := of_regOperands (by simp [Instr.regOperands])

end Sys2Proof.Laws.EncodeShape
end

