-- ==== Sys2Proof/Laws/Step.lean ====
section
/-!
SUPPORT. What a fetch and a step can do, said once.
-/

namespace Sys2Proof.Machine

/-- The bytes at the PC, written out: as many of the three as lie below 256. -/
theorem State.fetchBytes_eq (s : State) : s.fetchBytes =
    if s.pc.toNat < 256 then s.mem.read s.pc.toNat ::
      (if s.pc.toNat + 1 < 256 then s.mem.read (s.pc.toNat + 1) ::
        (if s.pc.toNat + 2 < 256 then [s.mem.read (s.pc.toNat + 2)] else [])
      else [])
    else [] := rfl

/-- How many bytes the fetch unit can read at the PC. -/
theorem State.length_fetchBytes (s : State) : s.fetchBytes.length = min 3 (256 - s.pc.toNat) := by
  rw [State.fetchBytes_eq]
  split <;> [split; skip] <;> [split; skip; skip] <;> simp <;> omega

/-- A step of a running machine whose bytes at the PC decode. -/
theorem stepWith_decoded {E : Enc} {s : State} {i : Instr} {rest : List Byte} (hr : s.running = true)
    (hd : decodeWith E s.fetchBytes = .ok (i, rest)) : stepWith E s = exec i s := by
  simp only [stepWith, hr, if_true, fetch, hd]

/-- If a step answers next, the machine was running and the step is the handler of the decoded instruction. -/
theorem stepWith_next {E : Enc} {s t : State} (h : stepWith E s = .next t) :
    s.running = true ∧ ∃ i rest, decodeWith E s.fetchBytes = .ok (i, rest) ∧ exec i s = .next t := by
  by_cases hr : s.running = true
  · simp only [stepWith, hr, if_true, fetch] at h
    split at h
    · exact ⟨hr, _, _, ‹_›, h⟩
    · cases h
    · cases h
  · simp only [stepWith, hr] at h
    cases h

end Sys2Proof.Machine
end

