-- ==== Sys2Proof/Tests/Slice0.lean ====
section
/-!
SUPPORT. Small tests and witnesses. Expected results come from the spec: the words from the tables of R53 and R55, the
single steps from Part 2 of 95_test_vectors.md (each named by its vector's id). A witness `witness_<Name>` shows a state
and operands that meet the hypotheses of `Obligations.<Name>`, clause by clause.
-/

namespace Sys2Proof.Tests

open Sys2Proof.Machine

/-- A state as the vectors describe one: bytes at the PC, some registers, some cells; all else as after reset. -/
def scene (pc : Nat) (bytes : List Byte) (regs : List (Fin 8 × Byte)) (cells : List (Nat × Byte)) : State :=
  regs.foldl (fun s r => s.setReg r.1 r.2)
    { State.reset with
      mem := cells.foldl (fun m c => m.write c.1 c.2) (Memory.writeBytes [] pc bytes)
      pc := BitVec.ofNat 9 pc }

/-- The outcome is a next state with this property. -/
def nextWith (o : StepOutcome) (p : State → Bool) : Bool :=
  match o with
  | .next t => p t
  | _ => false

/-- The outcome is this fault. -/
def faultsWith (o : StepOutcome) (f : Fault) : Bool :=
  match o with
  | .fault g => decide (g = f)
  | _ => false

/-! ### WellFormed refuses, one ill-formed term for each check (R54) -/

theorem smoke_loadImmediate_reg : (Instr.loadImmediate 8 1).wf = false := by decide
theorem smoke_printRegister_reg : (Instr.printRegister 255).wf = false := by decide
theorem smoke_add_regA : (Instr.add 9 0).wf = false := by decide
theorem smoke_add_regB : (Instr.add 0 8).wf = false := by decide
theorem smoke_multiply_regA : (Instr.multiply 200 1).wf = false := by decide
theorem smoke_multiply_regB : (Instr.multiply 1 200).wf = false := by decide
theorem smoke_push_reg : (Instr.push 8).wf = false := by decide
theorem smoke_pop_reg : (Instr.pop 8).wf = false := by decide
theorem smoke_call_reg : (Instr.call 16).wf = false := by decide
/-- An immediate has no illegal value. -/
theorem smoke_immediate_free : (Instr.loadImmediate 7 255).wf = true := by decide

/-! ### Decoding: words written out from R53 and R55 -/

theorem test_decode_halt : decode [0b00000001] = .ok (.halt, []) := by decide
theorem test_decode_loadImmediate : decode [0b10000010, 0b00000111, 0b11110100] = .ok (.loadImmediate 7 0xF4, []) := by
  decide
theorem test_decode_printRegister : decode [0b01000111, 0b00000001] = .ok (.printRegister 1, []) := by decide
/-- First operand first (R53), and the byte after the instruction is left. -/
theorem test_decode_add : decode [0b10100000, 0b00000101, 0b00000110, 0b00000001] = .ok (.add 5 6, [1]) := by decide
theorem test_decode_multiply : decode [0b10100010, 0b00000011, 0b00000100] = .ok (.multiply 3 4, []) := by decide
theorem test_decode_push : decode [0b01000101, 0b00000010] = .ok (.push 2, []) := by decide
theorem test_decode_pop : decode [0b01000110, 0b00000011] = .ok (.pop 3, []) := by decide
theorem test_decode_call : decode [0b01010000, 0b00000001] = .ok (.call 1, []) := by decide
theorem test_decode_ret : decode [0b00010001] = .ok (.ret, []) := by decide
/-- D4: well-formed fields, no entry. -/
theorem test_decode_A1 : decode [0xA1, 0, 1] = .error (.unknownOpcode 0xA1) := by decide
/-- The register byte is not masked (R54). -/
theorem test_decode_unmasked : decode [0x45, 0x08] = .ok (.push 8, []) := by decide
theorem test_decode_missing : decode [0x82, 0x09] = .error (.missingByte 2) := by decide
theorem test_table_word : decodeTableWord 24 0xF40782 = some (.loadImmediate 7 0xF4) := by decide
/-- Operand bytes the word does not give are zeros. -/
theorem test_table_word_short : decodeTableWord 8 0xFFA0 = some (.add 0 0) := by decide
theorem test_encode : encode (.multiply 1 2) = [0b10100010, 1, 2] := by decide
theorem test_defaultEnc_valid : defaultEnc.Valid := by decide
/-- For all nine default values bits 7:6 are the operand count (R52: a check on the table, not a rule). -/
theorem test_default_bits : Op.all.all (fun o => decide ((defaultEnc.byte o >>> 6).toNat = o.operandCount)) = true := by
  decide

/-! ### Single steps (95_test_vectors.md, Part 2) -/

/-- H2. -/
theorem test_halt_H2 : nextWith (step (scene 11 [0x01] [(0, 72), (1, 9)] []))
    (fun t => decide (t = { scene 11 [0x01] [(0, 72), (1, 9)] [] with running := false, pc := 12 })) = true := by decide
/-- H3. -/
theorem test_halt_H3 : nextWith (step (scene 255 [0x01] [] []))
    (fun t => decide (t.pc.toNat = 256) && !t.running) = true := by decide
/-- L4. -/
theorem test_loadImmediate_L4 : nextWith (step (scene 0 [0x82, 7, 0xF4] [] []))
    (fun t => decide (t.reg 7 = 0xF4 ∧ t.pc = 3)) = true := by decide
/-- L6. -/
theorem test_loadImmediate_L6 : nextWith (step (scene 253 [0x82, 3, 7] [] []))
    (fun t => decide (t.reg 3 = 7 ∧ t.pc.toNat = 256)) = true := by decide
/-- N3. -/
theorem test_printRegister_N3 : nextWith (step (scene 0 [0x47, 1] [(1, 255)] []))
    (fun t => decide (t.out = [255] ∧ t.pc = 2)) = true := by decide
/-- N4. -/
theorem test_printRegister_N4 : nextWith (step (scene 0 [0x47, 7] [(7, 0xF3)] []))
    (fun t => decide (t.out = [243] ∧ t.sinkLines = ["243"])) = true := by decide
/-- A1, the document's 255 + 2 == 1. -/
theorem test_add_A1 : nextWith (step (scene 0 [0xA0, 0, 1] [(0, 255), (1, 2)] []))
    (fun t => decide (t.reg 0 = 1 ∧ t.reg 1 = 2 ∧ t.pc = 3)) = true := by decide
/-- A9. -/
theorem test_add_A9 : nextWith (step (scene 0 [0xA0, 7, 0] [(7, 0xFF), (0, 1)] []))
    (fun t => decide (t.reg 7 = 0 ∧ t.reg 0 = 1)) = true := by decide
/-- M3. -/
theorem test_multiply_M3 : nextWith (step (scene 0 [0xA2, 0, 1] [(0, 255), (1, 255)] []))
    (fun t => decide (t.reg 0 = 1 ∧ t.reg 1 = 255)) = true := by decide
/-- M8. -/
theorem test_multiply_M8 : nextWith (step (scene 0 [0xA2, 2, 2] [(2, 15)] []))
    (fun t => decide (t.reg 2 = 225)) = true := by decide
/-- U4: the push writes its own opcode byte. -/
theorem test_push_U4 : nextWith (step (scene 0 [0x45, 0] [(0, 1), (7, 1)] []))
    (fun t => decide (t.reg 7 = 0 ∧ t.mem.read 0 = 1 ∧ t.pc = 2)) = true := by decide
/-- U7: PUSH R7 stores the decremented stack pointer. -/
theorem test_push_U7 : nextWith (step (scene 0 [0x45, 7] [(7, 0x10)] []))
    (fun t => decide (t.reg 7 = 0x0F ∧ t.mem.read 15 = 15)) = true := by decide
/-- O4. -/
theorem test_pop_O4 : nextWith (step (scene 0 [0x46, 3] [(7, 0x80)] [(128, 200)]))
    (fun t => decide (t.reg 3 = 200 ∧ t.reg 7 = 0x81 ∧ t.mem.read 128 = 200 ∧ t.pc = 2)) = true := by decide
/-- O5: POP R7 ends with the loaded value plus one. -/
theorem test_pop_O5 : nextWith (step (scene 0 [0x46, 7] [(7, 0xFF)] [(255, 99)]))
    (fun t => decide (t.reg 7 = 0x64)) = true := by decide
/-- C4. -/
theorem test_call_C4 : nextWith (step (scene 253 [0x50, 0] [(0, 20), (7, 0x80)] []))
    (fun t => decide (t.reg 7 = 0x7F ∧ t.mem.read 127 = 255 ∧ t.pc = 20)) = true := by decide
/-- C8: CALL R7 goes to the decremented stack pointer. -/
theorem test_call_C8 : nextWith (step (scene 4 [0x50, 7] [(7, 0x40)] []))
    (fun t => decide (t.reg 7 = 0x3F ∧ t.mem.read 63 = 6 ∧ t.pc = 63)) = true := by decide
/-- T3. -/
theorem test_ret_T3 : nextWith (step (scene 20 [0x11] [(7, 0xFE)] [(254, 14), (255, 8)]))
    (fun t => decide (t.pc = 14 ∧ t.reg 7 = 0xFF)) = true := by decide
/-- T5. -/
theorem test_ret_T5 : nextWith (step (scene 255 [0x11] [(7, 0x80)] []))
    (fun t => decide (t.pc = 0 ∧ t.reg 7 = 0x81)) = true := by decide

/-! ### Fatal conditions and their order (95_test_vectors.md, 2.1) -/

/-- D7: an unknown byte has no operands to fetch. -/
theorem test_fault_D7 : faultsWith (step (scene 255 [] [] [])) (.unknownOpcode 0 255) = true := by decide
/-- D8. -/
theorem test_fault_D8 : faultsWith (step (scene 256 [] [] [])) (.outOfBounds .memFetch 256 256) = true := by decide
/-- D10: the fetch fault before `reg_index`. -/
theorem test_fault_D10 : faultsWith (step (scene 254 [0x82, 9] [] [])) (.outOfBounds .memFetch 256 254) = true := by
  decide
/-- D16: the first operand is reported. -/
theorem test_fault_D16 : faultsWith (step (scene 0 [0xA0, 9, 8] [] [])) (.outOfBounds .regIndex 9 0) = true := by decide
/-- D17: `reg_index` before `stack_read`. -/
theorem test_fault_D17 : faultsWith (step (scene 0 [0x46, 8] [] [])) (.outOfBounds .regIndex 8 0) = true := by decide
/-- D18: `reg_index` before `return_address`. -/
theorem test_fault_D18 : faultsWith (step (scene 254 [0x50, 8] [] [])) (.outOfBounds .regIndex 8 254) = true := by decide
/-- O3: underflow with data in cell 0. -/
theorem test_fault_O3 : faultsWith (step (scene 4 [0x46, 0] [] [(0, 130)])) (.outOfBounds .stackRead 256 4) = true := by
  decide
/-- T2. -/
theorem test_fault_T2 : faultsWith (step (scene 0 [0x11] [] [])) (.outOfBounds .stackRead 256 0) = true := by decide
/-- C5. -/
theorem test_fault_C5 : faultsWith (step (scene 254 [0x50, 0] [(0, 20), (7, 0x80)] []))
    (.outOfBounds .returnAddress 256 254) = true := by decide

/-! ### Load and run (95_test_vectors.md, 2.6) -/

/-- Z5. -/
theorem test_load_Z5 : boot (List.replicate 257 1) = .error (.outOfBounds .loadSize 257 0) := by
  rw [boot, State.load, List.length_replicate]; rfl
/-- Z2 and Z7. -/
theorem test_run_Z2 : run 1 State.reset = .fatal (.unknownOpcode 0 0) State.reset := by decide
/-- Z3 and Z6. -/
theorem test_run_Z3 : (run 1 (scene 0 [0x01] [] [])).completionStatus = some 0 := by decide
/-- Z8. -/
theorem test_run_Z8 : (run 1 (scene 0 [0x46, 0x00] [] [])).completionStatus = some 2 := by decide
/-- A table word placed after reset is the next instruction to run. -/
theorem test_withFetchWord : nextWith (step (State.reset.withFetchWord 24 0xC80382))
    (fun t => decide (t.reg 3 = 200 ∧ t.pc = 3)) = true := by decide

/-! ### Witnesses: the hypotheses of every statement that has any -/

/-- An opcode map other than the default that R56 admits. -/
def otherEnc : Enc := ⟨1, 2, 3, 4, 5, 6, 7, 8, 255⟩

theorem witness_DecodeOfEncodedInstruction : otherEnc.Valid ∧ defaultEnc.Valid := by decide
theorem witness_DecodedBytesAreTheEncoding : decodeWith otherEnc [4, 1, 200, 9] = .ok (.add 1 200, [9]) := by decide
theorem witness_DispatchTableHasExactlyNineEntries : otherEnc.Valid ∧ State.reset.running = true ∧
    State.reset.pc.toNat ≤ 255 ∧ otherEnc.lookup State.reset.opcodeByte = none := by decide
theorem witness_TableEntryFixesInstructionLength :
    (otherEnc.lookup 4 = some .add ∧ Op.add.operandCount ≤ [1, 2].length) ∧ otherEnc.lookup 0 = none ∧
    (scene 255 [0x83] [] []).running = true ∧ (scene 255 [0x83] [] []).pc.toNat ≤ 255 ∧
    otherEnc.lookup (scene 255 [0x83] [] []).opcodeByte = none ∧
    Memory.read [(0, 1), (255, 0x83)] (scene 255 [0x83] [] []).pc.toNat = (scene 255 [0x83] [] []).opcodeByte := by
  decide
theorem witness_UnmappedByteValuesAre247 : otherEnc.Valid := by decide
theorem witness_LoadedImageIsTheMemory :
    (List.replicate 256 (1 : Byte)).length ≤ 256 ∧ 256 < (List.replicate 257 (1 : Byte)).length := by
  rw [List.length_replicate, List.length_replicate]; omega
theorem witness_EmptyImageRaisesUnknownOpcode : otherEnc.Valid := by decide
/-- At the boundary of the PC: HALT at 255 ends at 256. -/
theorem witness_EveryStepKeepsTheInvariant : (scene 255 [0x01] [] []).Inv ∧
    stepWith defaultEnc (scene 255 [0x01] [] []) = .next ((scene 255 [0x01] [] []).clearRunning.advance 1) :=
  ⟨by decide, rfl⟩
theorem witness_RunOutcomeTellsHaltFromFatal :
    (scene 0 [0x01] [] []).Inv ∧
    runWith defaultEnc 1 (scene 0 [0x01] [] []) = .halted ((scene 0 [0x01] [] []).clearRunning.advance 1) ∧
    runWith defaultEnc 1 State.reset = .fatal (.unknownOpcode 0 0) State.reset ∧
    (State.reset.running = true ∧ stepWith defaultEnc State.reset = .fault (.unknownOpcode 0 0)) ∧
    stepWith defaultEnc (scene 0 [0x01] [] []) = .next ((scene 0 [0x01] [] []).clearRunning.advance 1) :=
  ⟨by decide, by decide, by decide, ⟨rfl, rfl⟩, rfl⟩
theorem witness_MoreFuelGivesTheSameOutcome : ∀ t, runWith defaultEnc 1 State.reset ≠ .outOfFuel t := by
  have h : runWith defaultEnc 1 State.reset = .fatal (.unknownOpcode 0 0) State.reset := by decide
  intro t
  rw [h]
  exact RunResult.noConfusion
theorem witness_RunAgreesWithTheHostsRun :
    Sys2Proof.core.run 1 (scene 0 [0x01] [] []) = .next ((scene 0 [0x01] [] []).clearRunning.advance 1) := rfl
theorem witness_StepRunsTheDecodedInstruction :
    (scene 253 [0xA0, 1, 2] [] []).running = true ∧
    decode (scene 253 [0xA0, 1, 2] [] []).fetchBytes = .ok (.add 1 2, []) := by decide
/-- At the boundary: the encoding ends at cell 255. -/
theorem witness_StepRunsTheEncodedInstruction : otherEnc.Valid ∧ (scene 254 [6, 7] [] []).running = true ∧
    (scene 254 [6, 7] [] []).pc.toNat + (encodeWith otherEnc (.push 7)).length ≤ 256 ∧
    ∀ k (h : k < (encodeWith otherEnc (.push 7)).length),
      (scene 254 [6, 7] [] []).mem.read ((scene 254 [6, 7] [] []).pc.toNat + k) =
        (encodeWith otherEnc (.push 7))[k] := by decide
theorem witness_PlacedTableWordIsRunNext :
    (scene 255 [0x01] [] []).Inv ∧ decodeTableWord 16 0x0545 = some (.push 5) := by decide
/-- The five clauses in their order, each at its boundary. -/
theorem witness_StepTestsInTheSpecsOrder :
    ((scene 256 [] [] []).running = true ∧ 256 ≤ (scene 256 [] [] []).pc.toNat) ∧
    ((scene 255 [] [] []).pc.toNat ≤ 255 ∧ defaultEnc.lookup ((scene 255 [] [] []).mem.read 255) = none) ∧
    (defaultEnc.lookup ((scene 255 [0x47] [] []).mem.read 255) = some .printRegister ∧
      1 ≤ Op.printRegister.operandCount ∧ 256 ≤ (scene 255 [0x47] [] []).pc.toNat + 1) ∧
    (defaultEnc.lookup ((scene 254 [0x82, 9] [] []).mem.read 254) = some .loadImmediate ∧
      Op.loadImmediate.operandCount = 2 ∧ (scene 254 [0x82, 9] [] []).pc.toNat + 1 ≤ 255 ∧
      256 ≤ (scene 254 [0x82, 9] [] []).pc.toNat + 2) ∧
    (defaultEnc.lookup ((scene 253 [0xA0, 1, 2] [] []).mem.read 253) = some .add ∧
      (scene 253 [0xA0, 1, 2] [] []).pc.toNat + Op.add.operandCount ≤ 255) := by decide
theorem witness_UnknownOpcodeIsReported : (scene 255 [0xFF] [] []).running = true ∧
    (scene 255 [0xFF] [] []).pc.toNat ≤ 255 ∧ defaultEnc.lookup (scene 255 [0xFF] [] []).opcodeByte = none ∧
    Memory.read [(255, 0xFF)] (scene 255 [0xFF] [] []).pc.toNat = (scene 255 [0xFF] [] []).opcodeByte := by decide
theorem witness_HaltedMachineTakesNoStep : (State.reset.clearRunning).running = false := by decide
theorem witness_EveryFaultIsALegalReport : (scene 254 [0x50, 0] [] []).Inv ∧
    (scene 254 [0x50, 0] [] []).running = true ∧
    stepWith defaultEnc (scene 254 [0x50, 0] [] []) = .fault (.outOfBounds .returnAddress 256 254) :=
  ⟨by decide, by decide, rfl⟩
/-- The report must have its cause: no `mem_fetch` at PC 0 (R142). -/
theorem test_memFetch_needs_cause : ¬ (Fault.outOfBounds .memFetch 256 0).LegalReport defaultEnc State.reset := by
  rintro ⟨-, -, h | ⟨o, h, -⟩⟩
  · exact absurd h (by decide)
  · cases o <;> exact absurd h (by decide)
/-- No `stack_read` of a HALT, the stack empty as it is (R142). -/
theorem test_stackRead_needs_cause :
    ¬ (Fault.outOfBounds .stackRead 256 0).LegalReport defaultEnc (scene 0 [0x01] [] []) := by
  rintro ⟨-, -, -, o, rfl | rfl, h, -⟩ <;> exact absurd h (by decide)
theorem witness_FirstInvalidRegisterIsReported : ¬ (Instr.add 7 8).WF := by decide
theorem witness_HaltClearsRunning :
    (scene 255 [0x01] [] []).running = true ∧ (scene 255 [0x01] [] []).pc.toNat ≤ 255 ∧
    defaultEnc.lookup (scene 255 [0x01] [] []).opcodeByte = some .halt ∧ (scene 256 [] [] []).pc.toNat = 256 ∧
    Instr.printRegister 0 ≠ .halt := by decide
/-- The instruction of the last clause but one completes. -/
theorem witness_HaltClearsRunning_other :
    exec (.printRegister 0) State.reset = .next ((State.reset.emit 0).advance 2) := rfl
theorem witness_LoadImmediateWritesItsRegister :
    ((7 : Byte).toNat = (7 : Fin 8).val ∧ (scene 253 [] [] []).pc.toNat ≤ 253) ∧ 8 ≤ (8 : Byte).toNat ∧
    (defaultEnc.lookup (scene 255 [0x82] [] []).opcodeByte = some .loadImmediate ∧
      (scene 255 [0x82] [] []).pc.toNat = 255) ∧
    (defaultEnc.lookup (scene 254 [0x82, 9] [] []).opcodeByte = some .loadImmediate ∧
      (scene 254 [0x82, 9] [] []).pc.toNat = 254 ∧ (scene 254 [0x82, 9] [] []).running = true) := by decide
theorem witness_PrintRegisterEmitsItsRegister :
    ((7 : Byte).toNat = (7 : Fin 8).val ∧ (scene 254 [] [] []).pc.toNat ≤ 254) ∧ 8 ≤ (8 : Byte).toNat ∧
    (defaultEnc.lookup (scene 255 [0x47] [] []).opcodeByte = some .printRegister ∧
      (scene 255 [0x47] [] []).pc.toNat = 255 ∧ (scene 255 [0x47] [] []).running = true) := by decide
theorem witness_AddWrapsModulo256 :
    ((7 : Byte).toNat = (7 : Fin 8).val ∧ (0 : Byte).toNat = (0 : Fin 8).val) ∧ 8 ≤ (8 : Byte).toNat ∧
    ((7 : Byte).toNat ≤ 7 ∧ 8 ≤ (255 : Byte).toNat) ∧
    (defaultEnc.lookup (scene 255 [0xA0] [] []).opcodeByte = some .add ∧
      (scene 255 [0xA0] [] []).pc.toNat = 255 ∧ (scene 255 [0xA0] [] []).running = true) ∧
    (defaultEnc.lookup (scene 254 [0xA0, 9] [] []).opcodeByte = some .add ∧
      (scene 254 [0xA0, 9] [] []).pc.toNat = 254) := by decide
theorem witness_MultiplyWrapsModulo256 :
    ((7 : Byte).toNat = (7 : Fin 8).val ∧ (0 : Byte).toNat = (0 : Fin 8).val) ∧ 8 ≤ (8 : Byte).toNat ∧
    ((7 : Byte).toNat ≤ 7 ∧ 8 ≤ (255 : Byte).toNat) ∧
    (defaultEnc.lookup (scene 255 [0xA2] [] []).opcodeByte = some .multiply ∧
      (scene 255 [0xA2] [] []).pc.toNat = 255 ∧ (scene 255 [0xA2] [] []).running = true) ∧
    (defaultEnc.lookup (scene 254 [0xA2, 9] [] []).opcodeByte = some .multiply ∧
      (scene 254 [0xA2, 9] [] []).pc.toNat = 254) := by decide
theorem witness_PushStoresBelowTheStackPointer : State.reset.mem.wf = true ∧ (7 : Byte).toNat = (7 : Fin 8).val ∧
    (0 : Byte).toNat = (0 : Fin 8).val ∧ 8 ≤ (8 : Byte).toNat := by decide
theorem witness_PopLoadsFromTheStackPointer :
    ((7 : Byte).toNat = (7 : Fin 8).val ∧ (scene 0 [] [(7, 1)] []).reg 7 ≠ 0#8) ∧
    ((3 : Byte).toNat = (3 : Fin 8).val ∧ (scene 0 [] [(7, 255)] []).reg 7 ≠ 0#8) ∧
    ((7 : Byte).toNat ≤ 7 ∧ State.reset.reg 7 = 0#8) ∧ 8 ≤ (8 : Byte).toNat := by decide
theorem witness_CallPushesReturnAddressAndJumps :
    (State.reset.mem.wf = true ∧ (7 : Byte).toNat = (7 : Fin 8).val ∧ (scene 253 [] [] []).pc.toNat ≤ 253) ∧
    ((7 : Byte).toNat ≤ 7 ∧ (scene 254 [] [] []).pc.toNat = 254) ∧ 8 ≤ (8 : Byte).toNat := by decide
theorem witness_ReturnJumpsToTheTopOfStack :
    (scene 0 [] [(7, 1)] []).reg 7 ≠ 0#8 ∧ State.reset.reg 7 = 0#8 := by decide
theorem witness_OnlyListedRegistersAreWritten :
    exec (.loadImmediate 7 1) State.reset = .next ((State.reset.setReg 7 1).advance 3) ∧
    writesReg (.loadImmediate 7 1) 6 = false := ⟨rfl, by decide⟩
theorem witness_NonStoringInstructionsKeepMemory :
    Instr.halt.op ≠ .push ∧ Instr.halt.op ≠ .call ∧
    exec .halt State.reset = .next (State.reset.clearRunning.advance 1) := ⟨by decide, by decide, rfl⟩
theorem witness_StoringInstructionsWriteOneCell :
    (Instr.push 7).op = .push ∧ State.reset.mem.wf = true ∧
    exec (.push 7) State.reset = .next ((State.reset.decSp.store 255 255).advance 2) := ⟨by decide, by decide, rfl⟩
theorem witness_ProgramCounterUpdateTable :
    ((Instr.loadImmediate 0 1).op ≠ .call ∧ (Instr.loadImmediate 0 1).op ≠ .ret ∧
      (scene 253 [] [] []).pc.toNat + (Instr.loadImmediate 0 1).op.operandCount ≤ 255 ∧
      exec (.loadImmediate 0 1) (scene 253 [] [] []) = .next (((scene 253 [] [] []).setReg 0 1).advance 3)) ∧
    ((7 : Byte).toNat = (7 : Fin 8).val ∧
      exec (.call 7) State.reset = .next ((State.reset.decSp.store 255 2).loadPc 255)) ∧
    exec .ret (scene 0 [] [(7, 255)] []) = .next ((scene 0 [] [(7, 255)] []).incSp.loadPc 0) ∧
    (State.reset.running = true ∧ stepWith defaultEnc State.reset = .fault (.unknownOpcode 0 0)) :=
  ⟨⟨by decide, by decide, by decide, rfl⟩, ⟨by decide, rfl⟩, rfl, by decide, rfl⟩
theorem witness_RunningFlagIsClearedOnlyByHalt :
    stepWith defaultEnc (scene 0 [0x01] [] []) = .next ((scene 0 [0x01] [] []).clearRunning.advance 1) ∧
    Instr.printRegister 0 ≠ .halt ∧
    exec (.printRegister 0) State.reset = .next ((State.reset.emit 0).advance 2) ∧
    exec .ret State.reset = .fault (.outOfBounds .stackRead 256 0) ∧
    (scene 256 [] [] []).clearRunning.running = false := ⟨rfl, by decide, rfl, rfl, rfl⟩
theorem witness_OutputGrowsOnlyByPrintRegister :
    (stepWith defaultEnc (scene 0 [0x01] [] []) = .next ((scene 0 [0x01] [] []).clearRunning.advance 1) ∧
      defaultEnc.lookup (scene 0 [0x01] [] []).opcodeByte ≠ some .printRegister) ∧
    (stepWith defaultEnc (scene 0 [0x47, 7] [] []) = .next (((scene 0 [0x47, 7] [] []).emit 0).advance 2) ∧
      defaultEnc.lookup (scene 0 [0x47, 7] [] []).opcodeByte = some .printRegister) :=
  ⟨⟨rfl, by decide⟩, rfl, by decide⟩
theorem witness_OutputIsNeverRead :
    stepWith defaultEnc (scene 0 [0x47, 7] [] []) = .next (((scene 0 [0x47, 7] [] []).emit 0).advance 2) ∧
    stepWith defaultEnc State.reset = .fault (.unknownOpcode 0 0) := ⟨rfl, rfl⟩
theorem witness_MemoryIsWrittenOnlyByPushAndCall :
    (scene 0 [0x45, 7] [] []).Inv ∧
    stepWith defaultEnc (scene 0 [0x45, 7] [] []) =
      .next (((scene 0 [0x45, 7] [] []).decSp.store 255 255).advance 2) ∧
    (((scene 0 [0x45, 7] [] []).decSp.store 255 255).advance 2).mem ≠ (scene 0 [0x45, 7] [] []).mem :=
  ⟨by decide, rfl, by decide⟩
/-- Both clauses: a stack pointer of 1 and one that is not 1. -/
theorem witness_PushThenPopRestoresRegisters :
    State.reset.mem.wf = true ∧ (7 : Byte).toNat ≤ 7 ∧ State.reset.reg 7 ≠ 1#8 ∧
    (scene 0 [] [(7, 1)] []).reg 7 = 1#8 := by decide
theorem witness_CallThenReturnRestoresPcAndSp :
    State.reset.mem.wf = true ∧ (7 : Byte).toNat ≤ 7 ∧ (scene 253 [] [] []).pc.toNat ≤ 253 ∧
    State.reset.reg 7 ≠ 1#8 ∧ (scene 0 [] [(7, 1)] []).reg 7 = 1#8 := by decide
/-- CALL R7 goes to the cell it has just written; PUSH from PC 252 writes the cell at 254 it goes on to. The byte
stored: one without an entry; HALT's; PRINT_REGISTER's with its operand at 255; LOAD_IMMEDIATE's with none. -/
theorem witness_StoreIsSeenByTheNextFetch :
    (exec (.call 7) State.reset = .next ((State.reset.decSp.store 255 2).loadPc 255) ∧
      (((State.reset.decSp.store 255 2).loadPc 255).pc.toNat = pushAddress State.reset ∧
        ((State.reset.decSp.store 255 2).loadPc 255).running = true ∧
        defaultEnc.lookup (((State.reset.decSp.store 255 2).loadPc 255).mem.read 255) = none)) ∧
    (exec (.push 0) (scene 252 [] [(0, 1), (7, 255)] []) =
        .next (((scene 252 [] [(0, 1), (7, 255)] []).decSp.store 254 1).advance 2) ∧
      ((((scene 252 [] [(0, 1), (7, 255)] []).decSp.store 254 1).advance 2).pc.toNat =
          pushAddress (scene 252 [] [(0, 1), (7, 255)] []) ∧
        defaultEnc.lookup ((((scene 252 [] [(0, 1), (7, 255)] []).decSp.store 254 1).advance 2).mem.read 254) =
          some .halt)) ∧
    (exec (.push 0) (scene 252 [] [(0, 0x47), (7, 255)] []) =
        .next (((scene 252 [] [(0, 0x47), (7, 255)] []).decSp.store 254 0x47).advance 2) ∧
      pushAddress (scene 252 [] [(0, 0x47), (7, 255)] []) + Op.printRegister.operandCount ≤ 255 ∧
      defaultEnc.lookup 0x47 = some .printRegister) ∧
    (exec (.call 7) (scene 128 [] [] []) = .next (((scene 128 [] [] []).decSp.store 255 0x82).loadPc 255) ∧
      256 ≤ pushAddress (scene 128 [] [] []) + Op.loadImmediate.operandCount ∧
      defaultEnc.lookup 0x82 = some .loadImmediate) :=
  ⟨⟨rfl, by decide⟩, ⟨rfl, by decide⟩, ⟨rfl, by decide⟩, rfl, by decide⟩
theorem witness_RegisterFileContract :
    (6 : Fin 8) ≠ 7 ∧ 8 ≤ (8 : Byte).toNat ∧ (7 : Byte).toNat = (7 : Fin 8).val := by decide
theorem witness_MemoriesThatReadAlikeAreEqual :
    Memory.wf [(0, 1), (255, 2)] = true ∧ Memory.wf (Memory.write [(255, 2)] 0 1) = true ∧
    ∀ a, a < 256 → Memory.read [(0, 1), (255, 2)] a = Memory.read (Memory.write [(255, 2)] 0 1) a :=
  ⟨by decide, by decide, fun _ _ => rfl⟩

end Sys2Proof.Tests
end

section
/-!
O23: no step is refused. Each shared operation either raises, which is a fault, or goes on with the rest it is given
(the lemmas of Laws/Ops.lean); so a rest that never refuses gives a whole that never refuses, and every handler ends
in a next state.
-/

namespace Sys2Proof.Machine

variable {b : Byte} {s : State} {r : Refusal}

/-! ### An operation refuses only if the rest it is given does -/

theorem next_ne_refused {t : State} : (.next t : StepOutcome) ≠ .refused r := nofun

theorem withReg_ne_refused {k : Fin 8 → StepOutcome} (hk : ∀ i, k i ≠ .refused r) : withReg b s k ≠ .refused r :=
  fun h => let ⟨_, hr⟩ := withReg_eq_refused.mp h; hk _ hr

theorem checkStack_ne_refused {k : StepOutcome} (hk : k ≠ .refused r) : checkStack s k ≠ .refused r :=
  fun h => hk (checkStack_eq_refused.mp h).2

theorem checkReturnAddress_ne_refused {k : Byte → StepOutcome} (hk : ∀ ra, k ra ≠ .refused r) :
    checkReturnAddress s k ≠ .refused r :=
  fun h => hk _ (checkReturnAddress_eq_refused.mp h).2

theorem memRead_byte_ne_refused {k : Byte → StepOutcome} (hk : ∀ v, k v ≠ .refused r) :
    memRead b.toNat s k ≠ .refused r :=
  memRead_byte b s k ▸ hk _

theorem pushByte_ne_refused {v : State → Byte} {k : State → StepOutcome} (hk : ∀ t, k t ≠ .refused r) :
    pushByte v s k ≠ .refused r :=
  pushByte_eq v s k ▸ hk _

/-- What the fetch unit itself raises is a fault (R145(1) to (4)). -/
theorem fetch_ne_refused {E : Enc} {k : Instr → StepOutcome} (hk : ∀ i, k i ≠ .refused r) :
    fetch E s k ≠ .refused r := by
  unfold fetch
  split
  · exact hk _
  · exact nofun
  · exact nofun

/-! ### Every instruction has its meaning -/

theorem aluRegReg_ne_refused {op : AluOp} {regA regB : Byte} : aluRegReg op regA regB s ≠ .refused r :=
  withReg_ne_refused fun _ => withReg_ne_refused fun _ => next_ne_refused

theorem exec_ne_refused (i : Instr) (s : State) (r : Refusal) : exec i s ≠ .refused r := by
  cases i with
  | halt => exact next_ne_refused
  | loadImmediate reg value =>
    rw [exec, execLoadImmediate]
    exact withReg_ne_refused fun _ => next_ne_refused
  | printRegister reg =>
    rw [exec, execPrintRegister]
    exact withReg_ne_refused fun _ => next_ne_refused
  | add regA regB => exact aluRegReg_ne_refused
  | multiply regA regB => exact aluRegReg_ne_refused
  | push reg =>
    rw [exec, execPush]
    exact withReg_ne_refused fun _ => pushByte_ne_refused fun _ => next_ne_refused
  | pop reg =>
    rw [exec, execPop]
    exact withReg_ne_refused fun _ => checkStack_ne_refused <| memRead_byte_ne_refused fun _ => next_ne_refused
  | call reg =>
    rw [exec, execCall]
    exact withReg_ne_refused fun _ => checkReturnAddress_ne_refused fun _ =>
      pushByte_ne_refused fun _ => next_ne_refused
  | ret =>
    rw [exec, execRet]
    exact checkStack_ne_refused <| memRead_byte_ne_refused fun _ => next_ne_refused

/-- Settles O23: a halted machine's step is a fault, a running one's is the fetch followed by a handler. -/
theorem noStepIsRefused : Obligations.NoStepIsRefused := by
  unfold Obligations.NoStepIsRefused
  intro E s r
  unfold stepWith
  split
  · exact fetch_ne_refused fun i => exec_ne_refused i s r
  · exact nofun

end Sys2Proof.Machine
end

section
/-!
What a completed handler and a completed step have done, said once for all nine instructions, and the frames that
follow. `Completes s i t` is the equation `exec i s = .next t` as a relation with one rule per instruction
(`completes_iff`), so that a frame is a case split over the rules.
-/

namespace Sys2Proof

/-- An instruction is what its identity makes with its operand bytes. -/
theorem Instr.instr_op_of_operands {i : Instr} {b1 b2 : Byte}
    (h1 : ∀ h : 0 < i.operands.length, i.operands[0] = b1)
    (h2 : ∀ h : 1 < i.operands.length, i.operands[1] = b2) : i.op.instr b1 b2 = i := by
  cases i <;> simp_all [Instr.operands, Instr.op, Op.instr]

end Sys2Proof

namespace Sys2Proof.Machine

/-! ### The next states of the handlers -/

/-- The handler of `i` takes `s` to `t`. The index a valid operand byte names is written `⟨reg.toNat, h⟩`. -/
inductive Completes (s : State) : Instr → State → Prop
  /-- R100. -/
  | halt : Completes s .halt (s.clearRunning.advance 1)
  /-- R101. -/
  | loadImmediate {reg value : Byte} (h : reg.toNat < 8) :
      Completes s (.loadImmediate reg value) ((s.setReg ⟨reg.toNat, h⟩ value).advance 3)
  /-- R102. -/
  | printRegister {reg : Byte} (h : reg.toNat < 8) :
      Completes s (.printRegister reg) ((s.emit (s.reg ⟨reg.toNat, h⟩)).advance 2)
  /-- R110. -/
  | add {regA regB : Byte} (a : regA.toNat < 8) (b : regB.toNat < 8) :
      Completes s (.add regA regB)
        ((s.setReg ⟨regA.toNat, a⟩ (alu .add (s.reg ⟨regA.toNat, a⟩) (s.reg ⟨regB.toNat, b⟩))).advance 3)
  /-- R111. -/
  | multiply {regA regB : Byte} (a : regA.toNat < 8) (b : regB.toNat < 8) :
      Completes s (.multiply regA regB)
        ((s.setReg ⟨regA.toNat, a⟩ (alu .mul (s.reg ⟨regA.toNat, a⟩) (s.reg ⟨regB.toNat, b⟩))).advance 3)
  /-- R120. -/
  | push {reg : Byte} (h : reg.toNat < 8) :
      Completes s (.push reg) ((s.decSp.store (pushAddress s) (s.decSp.reg ⟨reg.toNat, h⟩)).advance 2)
  /-- R121. -/
  | pop {reg : Byte} (h : reg.toNat < 8) (hsp : s.sp ≠ 0#8) :
      Completes s (.pop reg) ((s.setReg ⟨reg.toNat, h⟩ (s.mem.read s.sp.toNat)).incSp.advance 2)
  /-- R130. -/
  | call {reg : Byte} (h : reg.toNat < 8) (hpc : s.pc.toNat ≤ 253) :
      Completes s (.call reg)
        ((s.decSp.store (pushAddress s) (BitVec.ofNat 8 (s.pc.toNat + 2))).loadPc (s.decSp.reg ⟨reg.toNat, h⟩))
  /-- R131. -/
  | ret (hsp : s.sp ≠ 0#8) : Completes s .ret (s.incSp.loadPc (s.mem.read s.sp.toNat))

variable {E : Enc} {s t : State} {i : Instr}

/-- The relation is the handler's answer. -/
theorem completes_iff : Completes s i t ↔ exec i s = .next t := by
  constructor
  · intro h
    cases h with
    | halt => exact exec_halt_next.mpr rfl
    | loadImmediate h => exact exec_loadImmediate_next.mpr ⟨h, rfl⟩
    | printRegister h => exact exec_printRegister_next.mpr ⟨h, rfl⟩
    | add a b => exact exec_add_next.mpr ⟨a, b, rfl⟩
    | multiply a b => exact exec_multiply_next.mpr ⟨a, b, rfl⟩
    | push h => exact exec_push_next.mpr ⟨h, rfl⟩
    | pop h hsp => exact exec_pop_next.mpr ⟨h, hsp, rfl⟩
    | call h hpc => exact exec_call_next.mpr ⟨h, hpc, rfl⟩
    | ret hsp => exact exec_ret_next.mpr ⟨hsp, rfl⟩
  · intro h
    cases i with
    | halt => obtain rfl := exec_halt_next.mp h; exact .halt
    | loadImmediate reg value => obtain ⟨hr, rfl⟩ := exec_loadImmediate_next.mp h; exact .loadImmediate hr
    | printRegister reg => obtain ⟨hr, rfl⟩ := exec_printRegister_next.mp h; exact .printRegister hr
    | add regA regB => obtain ⟨a, b, rfl⟩ := exec_add_next.mp h; exact .add a b
    | multiply regA regB => obtain ⟨a, b, rfl⟩ := exec_multiply_next.mp h; exact .multiply a b
    | push reg => obtain ⟨hr, rfl⟩ := exec_push_next.mp h; exact .push hr
    | pop reg => obtain ⟨hr, hsp, rfl⟩ := exec_pop_next.mp h; exact .pop hr hsp
    | call reg => obtain ⟨hr, hpc, rfl⟩ := exec_call_next.mp h; exact .call hr hpc
    | ret => obtain ⟨hsp, rfl⟩ := exec_ret_next.mp h; exact .ret hsp

namespace Completes

/-- Only HALT writes the Running flag, and it clears it (R17, R100). -/
theorem running_eq (h : Completes s i t) : t.running = (s.running && decide (i.op ≠ .halt)) := by
  cases h <;> simp [Instr.op]

/-- Only PRINT_REGISTER emits (R21, R102). -/
theorem out_eq (h : Completes s i t) (hi : i.op ≠ .printRegister) : t.out = s.out := by
  cases h
  case printRegister => exact absurd rfl hi
  all_goals rfl

/-- Memory stays, or PUSH or CALL has written the one cell below the stack pointer (R32). -/
theorem mem_eq (h : Completes s i t) :
    t.mem = s.mem ∨ (i.op = .push ∨ i.op = .call) ∧ ∃ v, t.mem = s.mem.write (pushAddress s) v := by
  cases h
  case push => exact .inr ⟨.inl rfl, _, rfl⟩
  case call => exact .inr ⟨.inr rfl, _, rfl⟩
  all_goals exact .inl rfl

/-- Memory stays in its canonical form, since a push writes a cell (R20, R32). -/
theorem mem_wf (h : Completes s i t) (hwf : s.mem.wf = true) : t.mem.wf = true := by
  obtain hm | ⟨-, v, hm⟩ := h.mem_eq <;> rw [hm]
  · exact hwf
  · exact Memory.wf_write v hwf (pushAddress_lt s)

/-- The instructions that do not load the PC advance it over their own bytes (R15). -/
theorem pc_eq_advance (h : Completes s i t) (hcall : i.op ≠ .call) (hret : i.op ≠ .ret) :
    t.pc = BitVec.ofNat 9 (s.pc.toNat + (1 + i.op.operandCount)) := by
  cases h
  case call => exact absurd rfl hcall
  case ret => exact absurd rfl hret
  all_goals rfl

/-- The advance as a natural number, for an instruction that ends below 256 (R16). -/
theorem pc_toNat_of_fits (h : Completes s i t) (hcall : i.op ≠ .call) (hret : i.op ≠ .ret)
    (hfit : s.pc.toNat + i.op.operandCount ≤ 255) : t.pc.toNat = s.pc.toNat + 1 + i.op.operandCount := by
  rw [h.pc_eq_advance hcall hret, BitVec.toNat_ofNat, Nat.mod_eq_of_lt (by omega), Nat.add_assoc]

/-- An instruction that ends below 256 leaves the PC at most 256: it advances to its end or jumps to a byte (R16). -/
theorem pc_le (h : Completes s i t) (hfit : s.pc.toNat + i.op.operandCount ≤ 255) : t.pc.toNat ≤ 256 := by
  have jump_le (b : Byte) : (b.setWidth 9).toNat ≤ 256 := by bv_omega
  have advance_le (hcall : i.op ≠ .call) (hret : i.op ≠ .ret) : t.pc.toNat ≤ 256 := by
    have := h.pc_toNat_of_fits hcall hret hfit
    omega
  cases h
  case call | ret => exact jump_le _
  all_goals exact advance_le nofun nofun

/-- The frame of the register file: the "writes" column of R11. -/
theorem reg_eq (h : Completes s i t) {j : Fin 8} (hj : writesReg i j = false) : t.reg j = s.reg j := by
  cases h <;> simp [writesReg] at hj <;>
    simp [State.reg_setReg, State.reg_decSp, State.reg_incSp, Fin.ext_iff, eq_comm, hj]

end Completes

/-! ### The instruction a step has fetched -/

/-- The fetch unit's bytes are the cells from the PC on (R71). -/
theorem Memory.getElem_bytesFrom (m : Memory) (a n k : Nat) (h : k < (m.bytesFrom a n).length) :
    (m.bytesFrom a n)[k] = m.read (a + k) := by
  induction n generalizing a k with
  | zero => exact absurd h (Nat.not_lt_zero k)
  | succ n ih =>
    by_cases ha : a < 256
    · simp only [Memory.bytesFrom_succ, if_pos ha] at h ⊢
      cases k with
      | zero => rfl
      | succ k => simpa [Nat.add_assoc, Nat.add_comm 1 k] using ih (a + 1) k (by simpa using h)
    · simp [Memory.bytesFrom_succ, ha] at h

/-- What a decoded fetch says of memory: the entry of the byte at the PC is the instruction's, its bytes all lie below
256, and they are the bytes it was made of (R80 steps 1 to 3). -/
theorem decoded_at_pc {rest : List Byte} (hd : decodeWith E s.fetchBytes = .ok (i, rest)) :
    E.lookup s.opcodeByte = some i.op ∧ s.pc.toNat + i.op.operandCount ≤ 255 ∧ s.instrAt i.op = i := by
  obtain ⟨b, hb, hl⟩ := decodeWith_ok hd
  have cell (k : Nat) (h : k < (b :: (i.operands ++ rest)).length) :
      (b :: (i.operands ++ rest))[k] = s.mem.read (s.pc.toNat + k) := by
    simp only [← hb]
    exact Memory.getElem_bytesFrom ..
  have hlen := congrArg List.length hb
  simp only [State.length_fetchBytes, List.length_cons, List.length_append, Instr.length_operands] at hlen
  refine ⟨?_, by omega, Instr.instr_op_of_operands (fun h => ?_) (fun h => ?_)⟩
  · rw [State.opcodeByte, ← hl]
    exact congrArg _ (cell 0 (by simp)).symm
  · exact (List.getElem_append_left h).symm.trans (cell 1 (by simp; omega))
  · exact (List.getElem_append_left h).symm.trans (cell 2 (by simp; omega))

/-- If a step answers next, the machine was running, and the instruction whose bytes stand at the PC, all of them
below 256, has completed. -/
theorem stepWith_completes (h : stepWith E s = .next t) :
    s.running = true ∧ ∃ i, E.lookup s.opcodeByte = some i.op ∧ s.pc.toNat + i.op.operandCount ≤ 255 ∧
      s.instrAt i.op = i ∧ Completes s i t := by
  obtain ⟨hr, i, rest, hd, hx⟩ := stepWith_next h
  obtain ⟨hl, hfit, hat⟩ := decoded_at_pc hd
  exact ⟨hr, i, hl, hfit, hat, completes_iff.mpr hx⟩

/-! ### The run -/

/-- A machine that does not run takes no step (R81). -/
theorem runWith_of_halted (E : Enc) (n : Nat) (h : s.running = false) : runWith E n s = .halted s := by
  cases n <;> simp [runWith, h]

/-- A step that raises ends the run in the state it was taken from (R146). -/
theorem runWith_of_fault {f : Fault} (n : Nat) (hr : s.running = true) (h : stepWith E s = .fault f) :
    runWith E (n + 1) s = .fatal f s := by
  simp only [runWith, hr, if_true, h]

end Sys2Proof.Machine
end

section
/-!
Nothing an instruction does depends on the Running flag or on the output sequence (R17, R21). `State.relabel f p`
changes just these two fields: it applies `f` to the flag and puts `p` before the output. It commutes with every state
operation (but clearing the flag, if `f false` is not false), hence with every handler and with the step.
-/

namespace Sys2Proof.Machine

/-- The state with `f` applied to the Running flag and `p` put before the output. -/
def State.relabel (f : Bool → Bool) (p : List Byte) (s : State) : State :=
  { s with running := f s.running, out := p ++ s.out }

/-- An outcome with a function applied to its next state. -/
def mapNext (φ : State → State) : StepOutcome → StepOutcome
  | .next t => .next (φ t)
  | .fault f => .fault f
  | .refused r => .refused r

@[simp] theorem mapNext_next (φ : State → State) (t : State) : mapNext φ (.next t) = .next (φ t) := rfl
@[simp] theorem mapNext_fault (φ : State → State) (f : Fault) : mapNext φ (.fault f) = .fault f := rfl

section
variable {f : Bool → Bool} {p : List Byte} {s : State} {b : Byte}

@[simp] theorem State.relabel_mem : (s.relabel f p).mem = s.mem := rfl
@[simp] theorem State.relabel_pc : (s.relabel f p).pc = s.pc := rfl
@[simp] theorem State.relabel_reg (j : Fin 8) : (s.relabel f p).reg j = s.reg j := rfl
@[simp] theorem State.relabel_sp : (s.relabel f p).sp = s.sp := rfl

theorem State.relabel_emit (v : Byte) : (s.relabel f p).emit v = (s.emit v).relabel f p := by
  simp [State.relabel, State.emit]

theorem State.relabel_clearRunning (hf : f false = false) :
    (s.relabel f p).clearRunning = s.clearRunning.relabel f p := by
  simp [State.relabel, State.clearRunning, hf]

/-! ### Each operation commutes when the rest it is given does -/

theorem withReg_relabel {k k' : Fin 8 → StepOutcome} (hk : ∀ r, k' r = mapNext (State.relabel f p) (k r)) :
    withReg b (s.relabel f p) k' = mapNext (State.relabel f p) (withReg b s k) := by
  by_cases hb : b.toNat < 8
  · rw [withReg_valid hb, withReg_valid hb, hk]
  · rw [withReg_invalid (Nat.not_lt.mp hb), withReg_invalid (Nat.not_lt.mp hb)]
    rfl

theorem checkStack_relabel {k k' : StepOutcome} (hk : k' = mapNext (State.relabel f p) k) :
    checkStack (s.relabel f p) k' = mapNext (State.relabel f p) (checkStack s k) := by
  by_cases h : s.sp = 0#8 <;> simp [checkStack, raise, h, hk]

theorem checkReturnAddress_relabel {k k' : Byte → StepOutcome} (hk : ∀ ra, k' ra = mapNext (State.relabel f p) (k ra)) :
    checkReturnAddress (s.relabel f p) k' = mapNext (State.relabel f p) (checkReturnAddress s k) := by
  by_cases h : 256 ≤ s.pc.toNat + 2 <;> simp [checkReturnAddress, raise, h, hk]

theorem memRead_byte_relabel {k k' : Byte → StepOutcome} (hk : ∀ v, k' v = mapNext (State.relabel f p) (k v)) :
    memRead b.toNat (s.relabel f p) k' = mapNext (State.relabel f p) (memRead b.toNat s k) := by
  rw [memRead_byte, memRead_byte, hk, State.relabel_mem]

theorem pushByte_relabel {v : State → Byte} {k k' : State → StepOutcome} (hv : v (s.decSp.relabel f p) = v s.decSp)
    (hk : ∀ t, k' (t.relabel f p) = mapNext (State.relabel f p) (k t)) :
    pushByte v (s.relabel f p) k' = mapNext (State.relabel f p) (pushByte v s k) := by
  rw [pushByte_eq, pushByte_eq, ← hk, ← hv]
  rfl

theorem aluRegReg_relabel {op : AluOp} {regA regB : Byte} :
    aluRegReg op regA regB (s.relabel f p) = mapNext (State.relabel f p) (aluRegReg op regA regB s) :=
  withReg_relabel fun _ => withReg_relabel fun _ => rfl

/-! ### The handlers and the step -/

theorem exec_relabel {i : Instr} (hf : i = .halt → f false = false) :
    exec i (s.relabel f p) = mapNext (State.relabel f p) (exec i s) := by
  cases i with
  | halt =>
    simp only [exec, execHalt, mapNext_next, State.relabel_clearRunning (hf rfl)]
    rfl
  | loadImmediate reg value =>
    simp only [exec, execLoadImmediate]
    exact withReg_relabel fun _ => rfl
  | printRegister reg =>
    simp only [exec, execPrintRegister]
    refine withReg_relabel fun _ => ?_
    rw [State.relabel_emit]
    rfl
  | add regA regB => exact aluRegReg_relabel
  | multiply regA regB => exact aluRegReg_relabel
  | push reg =>
    simp only [exec, execPush]
    exact withReg_relabel fun _ => pushByte_relabel rfl fun _ => rfl
  | pop reg =>
    simp only [exec, execPop]
    exact withReg_relabel fun _ => checkStack_relabel <| memRead_byte_relabel fun _ => rfl
  | call reg =>
    simp only [exec, execCall]
    exact withReg_relabel fun _ => checkReturnAddress_relabel fun _ => pushByte_relabel rfl fun _ => rfl
  | ret =>
    simp only [exec, execRet]
    exact checkStack_relabel <| memRead_byte_relabel fun _ => rfl

theorem fetch_relabel {E : Enc} {k k' : Instr → StepOutcome} (hk : ∀ i, k' i = mapNext (State.relabel f p) (k i)) :
    fetch E (s.relabel f p) k' = mapNext (State.relabel f p) (fetch E s k) := by
  have hb : (s.relabel f p).fetchBytes = s.fetchBytes := rfl
  simp only [fetch, hb]
  split
  · exact hk _
  · rfl
  · rfl

/-- The step reads the flag once, before the fetch, and never the output (R80). -/
theorem stepWith_relabel_out (E : Enc) :
    stepWith E (s.relabel id p) = mapNext (State.relabel id p) (stepWith E s) := by
  have hr : (s.relabel id p).running = s.running := rfl
  simp only [stepWith, hr]
  split
  · exact fetch_relabel fun _ => exec_relabel fun _ => rfl
  · rfl

end

/-- Another flag is a relabelling. -/
theorem State.setRunning_eq_relabel (s : State) (b : Bool) : { s with running := b } = s.relabel (fun _ => b) [] := rfl

/-- Another output is a relabelling of the state with none. -/
theorem State.setOut_eq_relabel (s : State) (o : List Byte) :
    { s with out := o } = State.relabel id o { s with out := [] } := by simp [State.relabel]

end Sys2Proof.Machine
end

section
/-!
The statements about the state: its reset values, the invariant, and which steps write which field.
-/

namespace Sys2Proof.Machine

/-- Settles O7: each field of `State.reset` is its row of the table of R23. -/
theorem resetStateValues : Obligations.ResetStateValues := by
  unfold Obligations.ResetStateValues
  exact ⟨fun _ => rfl, fun j => by simp [State.reg, State.reset], rfl, rfl, rfl⟩

/-- Settles O10: the empty memory is canonical and the PC is 0. -/
theorem resetMeetsTheInvariant : Obligations.ResetMeetsTheInvariant := by
  unfold Obligations.ResetMeetsTheInvariant
  exact ⟨rfl, Nat.zero_le 256⟩

/-- Settles O11: the one cell a push writes is below 256, and the instruction a step has fetched ends below 256. -/
theorem everyStepKeepsTheInvariant : Obligations.EveryStepKeepsTheInvariant := by
  unfold Obligations.EveryStepKeepsTheInvariant
  intro E s t ⟨hwf, _⟩ h
  obtain ⟨-, i, -, hfit, -, hc⟩ := stepWith_completes h
  exact ⟨hc.mem_wf hwf, hc.pc_le hfit⟩

/-- Settles O35: the nine rules of `Completes` write no register but those of the table of R11. -/
theorem onlyListedRegistersAreWritten : Obligations.OnlyListedRegistersAreWritten := by
  unfold Obligations.OnlyListedRegistersAreWritten
  intro i s t j h hj
  exact (completes_iff.mpr h).reg_eq hj

/-- Settles O38: the advance is bounded so that it cannot wrap, the two jumps are read off their rules, and the run
ends in the state before the step that raises. -/
theorem programCounterUpdateTable : Obligations.ProgramCounterUpdateTable := by
  unfold Obligations.ProgramCounterUpdateTable
  refine ⟨fun i s t hcall hret hfit h => (completes_iff.mpr h).pc_toNat_of_fits hcall hret hfit, ?_, ?_, ?_⟩
  · intro reg r s t hr h
    obtain ⟨hlt, -, rfl⟩ := exec_call_next.mp h
    have hr' : (⟨reg.toNat, hlt⟩ : Fin 8) = r := Fin.ext hr
    rw [State.loadPc_pc, hr']
  · intro s t h
    obtain ⟨-, rfl⟩ := exec_ret_next.mp h
    rfl
  · exact fun E n s f hr h => ⟨s, runWith_of_fault n hr h, rfl⟩

/-- Settles O39: HALT's rule is the only one that writes the flag, and every other handler commutes with setting it. -/
theorem runningFlagIsClearedOnlyByHalt : Obligations.RunningFlagIsClearedOnlyByHalt := by
  unfold Obligations.RunningFlagIsClearedOnlyByHalt
  refine ⟨rfl, ?_, fun E n s h => runWith_of_halted E n h, fun i s b => ⟨?_, ?_⟩⟩
  · intro E s t h
    obtain ⟨hr, i, hl, -, -, hc⟩ := stepWith_completes h
    refine ⟨hr, ?_⟩
    rw [hc.running_eq, hr, hl]
    simp
  · intro t hi h
    rw [State.setRunning_eq_relabel, exec_relabel (fun hh => absurd hh hi), h]
    rfl
  · intro f h
    have hi : i ≠ .halt := by
      rintro rfl
      cases h
    rw [State.setRunning_eq_relabel, exec_relabel (fun hh => absurd hh hi), h]
    rfl

/-- Settles O40: PRINT_REGISTER's rule is the only one that emits, and its operand is the byte after the PC. -/
theorem outputGrowsOnlyByPrintRegister : Obligations.OutputGrowsOnlyByPrintRegister := by
  unfold Obligations.OutputGrowsOnlyByPrintRegister
  intro E s t h
  obtain ⟨-, i, hl, -, hat, hc⟩ := stepWith_completes h
  rw [hl]
  refine ⟨fun hi => hc.out_eq fun hop => hi (congrArg some hop), fun hi => ?_⟩
  obtain hop : i.op = .printRegister := Option.some.inj hi
  rw [hop] at hat
  subst hat
  obtain ⟨hlt, rfl⟩ := exec_printRegister_next.mp (completes_iff.mp hc)
  exact ⟨_, rfl, rfl⟩

/-- Settles O41: the step from `s` and the step with the other output are the step from `s` with no output, each with
its own output put before what that step emits. -/
theorem outputIsNeverRead : Obligations.OutputIsNeverRead := by
  unfold Obligations.OutputIsNeverRead
  intro E s o
  have key (q : List Byte) : stepWith E { s with out := q } =
      mapNext (State.relabel id q) (stepWith E { s with out := [] }) := by
    rw [State.setOut_eq_relabel, stepWith_relabel_out]
  have hs : stepWith E s = mapNext (State.relabel id s.out) (stepWith E { s with out := [] }) := key s.out
  rw [hs, key o]
  cases stepWith E { s with out := [] } with
  | next t₀ =>
    refine ⟨fun t ht => ?_, nofun⟩
    obtain rfl := next_eq_next.mp ht
    exact ⟨t₀.out, rfl, rfl⟩
  | fault g => exact ⟨nofun, fun f hf => hf⟩
  | refused r => exact ⟨nofun, nofun⟩

/-- Settles O42: of the two cases of `Completes.mem_eq` only the write changes memory. -/
theorem memoryIsWrittenOnlyByPushAndCall : Obligations.MemoryIsWrittenOnlyByPushAndCall := by
  unfold Obligations.MemoryIsWrittenOnlyByPushAndCall
  intro E s t _ h hne
  obtain ⟨-, i, hl, -, -, hc⟩ := stepWith_completes h
  obtain hm | ⟨hop, v, hm⟩ := hc.mem_eq
  · exact absurd hm hne
  · rw [hl, ← pushAddress_eq]
    exact ⟨hop.imp (congrArg some) (congrArg some), v, hm⟩

end Sys2Proof.Machine
end

section
/-!
What the step of a running machine does, from the byte at the PC on (R80 steps 1 to 3): no entry, an entry whose
operand bytes are cells, an entry with an operand byte missing.
-/

namespace Sys2Proof

variable {E : Enc} {b : Byte} {bs : List Byte} {o : Op}

/-- Behind the byte of its entry, an instruction's operand bytes decode to it, whatever follows them (R57). -/
theorem decodeWith_operands {i : Instr} (hl : E.lookup b = some i.op) (rest : List Byte) :
    decodeWith E (b :: (i.operands ++ rest)) = .ok (i, rest) := by
  simp only [decodeWith, hl]
  cases i <;> rfl

/-- An entry with an operand byte missing: the decoder names the first byte that is not there (R145(3), (4)). -/
theorem decodeWith_of_missing (hl : E.lookup b = some o) (h : bs.length < o.operandCount) :
    decodeWith E (b :: bs) = .error (.missingByte (bs.length + 1)) := by
  simp only [Op.operandCount] at h
  simp only [decodeWith, hl]
  cases hf : o.format <;> simp only [hf, Format.operandCount] at h
  case Z => omega
  case R => rw [List.eq_nil_of_length_eq_zero (Nat.lt_one_iff.mp h)]; rfl
  all_goals
    match bs, h with
    | [], _ => rfl
    | [_], _ => rfl

end Sys2Proof

namespace Sys2Proof.Machine

variable {E : Enc} {s : State} {o : Op}

/-- Where the PC names a cell, the fetch unit reads the opcode byte first (R71). -/
theorem State.fetchBytes_eq_cons (hpc : s.pc.toNat ≤ 255) :
    s.fetchBytes = s.opcodeByte :: s.mem.bytesFrom (s.pc.toNat + 1) 2 := if_pos (by simp only [Config.N]; omega)

/-- Where an entry's operand bytes are cells, they are the first the fetch unit reads after the opcode byte (R71). -/
theorem State.bytesFrom_eq_operands (s : State) (hfit : s.pc.toNat + o.operandCount ≤ 255) :
    ∃ rest, s.mem.bytesFrom (s.pc.toNat + 1) 2 = (s.instrAt o).operands ++ rest := by
  cases o with
  | halt | ret => exact ⟨_, rfl⟩
  | printRegister | push | pop | call =>
    have h1 : s.pc.toNat + 1 < 256 := Nat.lt_succ_of_le hfit
    exact ⟨_, if_pos h1⟩
  | loadImmediate | add | multiply =>
    have h2 : s.pc.toNat + 1 + 1 < 256 := Nat.lt_succ_of_le hfit
    refine ⟨[], ?_⟩
    rw [Memory.bytesFrom_succ, if_pos (by omega), Memory.bytesFrom_succ, if_pos h2]
    rfl

/-- A byte without an entry (R80 step 2, R141). -/
theorem stepWith_of_no_entry (hr : s.running = true) (hpc : s.pc.toNat ≤ 255) (hl : E.lookup s.opcodeByte = none) :
    stepWith E s = .fault (.unknownOpcode s.opcodeByte s.pc) := by
  simp only [stepWith, hr, if_true, fetch, State.fetchBytes_eq_cons hpc, decodeWith_unknown hl, raise]

/-- An entry whose operand bytes are cells (R80 steps 3 and 4). -/
theorem stepWith_of_entry (hr : s.running = true) (hl : E.lookup s.opcodeByte = some o)
    (hfit : s.pc.toNat + o.operandCount ≤ 255) : stepWith E s = exec (s.instrAt o) s := by
  obtain ⟨rest, hb⟩ := s.bytesFrom_eq_operands hfit
  refine stepWith_decoded (rest := rest) hr ?_
  rw [State.fetchBytes_eq_cons (by omega), hb]
  exact decodeWith_operands (by rw [hl, State.instrAt, Op.op_instr]) rest

/-- An entry with an operand byte at 256 (R80 step 3, R145(3), (4)): a PC so near the end leaves the fetch unit just
the bytes up to 255, and the first missing one is at 256. -/
theorem stepWith_of_missing_operand (hr : s.running = true) (hpc : s.pc.toNat ≤ 255)
    (hl : E.lookup s.opcodeByte = some o) (hshort : 256 ≤ s.pc.toNat + o.operandCount) :
    stepWith E s = .fault (.outOfBounds .memFetch 256 s.pc) := by
  have hcount : o.operandCount ≤ 2 := by cases o <;> decide
  have hlen := s.length_fetchBytes
  rw [State.fetchBytes_eq_cons hpc, List.length_cons] at hlen
  have hd := decodeWith_of_missing (bs := s.mem.bytesFrom (s.pc.toNat + 1) 2) hl (by omega)
  rw [← State.fetchBytes_eq_cons hpc] at hd
  simp only [stepWith, hr, if_true, fetch, hd, raise]
  rw [hlen, show s.pc.toNat + min 3 (256 - s.pc.toNat) = 256 by omega]

end Sys2Proof.Machine
end

section
/-!
A canonical memory is determined by what it reads: its first entry is the lowest cell that does not read `0x00`, and
the rest is determined in the same way.
-/

namespace Sys2Proof.Machine

variable {m n : Memory} {lo a : Nat} {v : Byte}

/-- The canonical form of a memory with a first entry. -/
theorem Memory.wfFrom_cons : Memory.wfFrom lo ((a, v) :: m) = true ↔
    lo ≤ a ∧ a < 256 ∧ v ≠ 0#8 ∧ m.wfFrom (a + 1) = true := by
  simp [Memory.wfFrom, and_assoc]

@[simp] theorem Memory.read_cons_self : Memory.read ((a, v) :: m) a = v := if_pos rfl

/-- A cell other than the first entry's reads what the rest of the list holds. -/
theorem Memory.read_cons_of_ne {b : Nat} (h : b ≠ a) : Memory.read ((a, v) :: m) b = m.read b := if_neg h

/-- No cell below the first entry of a canonical memory reads anything but `0x00`. -/
theorem Memory.head_le_of_read_ne_zero {b : Nat} (h : Memory.wfFrom lo ((a, v) :: m) = true)
    (hb : Memory.read ((a, v) :: m) b ≠ 0#8) : a ≤ b := by
  obtain ⟨-, ha, hv, hm⟩ := Memory.wfFrom_cons.mp h
  by_contra hlt
  exact hb (Memory.read_below (Memory.wfFrom_cons.mpr ⟨le_refl a, ha, hv, hm⟩) (Nat.not_le.mp hlt))

/-- Extensionality, from any bound. -/
theorem Memory.eq_of_read_eq (hm : m.wfFrom lo = true) (hn : n.wfFrom lo = true)
    (h : ∀ a, a < 256 → m.read a = n.read a) : m = n := by
  induction m generalizing n lo with
  | nil =>
    cases n with
    | nil => rfl
    | cons d n =>
      obtain ⟨b, w⟩ := d
      obtain ⟨-, hb, hw, -⟩ := Memory.wfFrom_cons.mp hn
      exact absurd ((h b hb).trans Memory.read_cons_self).symm hw
  | cons c m ih =>
    obtain ⟨a, v⟩ := c
    obtain ⟨-, ha, hv, hm'⟩ := Memory.wfFrom_cons.mp hm
    have hra : n.read a = v := (h a ha).symm.trans Memory.read_cons_self
    cases n with
    | nil => exact absurd hra.symm hv
    | cons d n =>
      obtain ⟨b, w⟩ := d
      obtain ⟨-, hb, hw, hn'⟩ := Memory.wfFrom_cons.mp hn
      have hrb : Memory.read ((a, v) :: m) b = w := (h b hb).trans Memory.read_cons_self
      obtain rfl : a = b := le_antisymm (Memory.head_le_of_read_ne_zero hm (hrb ▸ hw))
        (Memory.head_le_of_read_ne_zero hn (hra ▸ hv))
      obtain rfl : w = v := Memory.read_cons_self.symm.trans hra
      have htail (x : Nat) (hx : x < 256) : Memory.read m x = Memory.read n x := by
        by_cases hxa : x = a
        · rw [hxa, Memory.read_below hm' (Nat.lt_succ_self a), Memory.read_below hn' (Nat.lt_succ_self a)]
        · simpa [Memory.read_cons_of_ne hxa] using h x hx
      rw [ih hm' hn' htail]

end Sys2Proof.Machine
end

section
/-!
The statements about memory: which cells an instruction leaves, what the next fetch sees of a store, and when two
memories are one.
-/

namespace Sys2Proof.Machine

/-- Settles O36: `Completes.mem_eq` allows a write to PUSH and CALL only. -/
theorem nonStoringInstructionsKeepMemory : Obligations.NonStoringInstructionsKeepMemory := by
  unfold Obligations.NonStoringInstructionsKeepMemory
  intro i s t hpush hcall h a
  obtain hm | ⟨hop, -⟩ := (completes_iff.mpr h).mem_eq
  · rw [hm]
  · exact (hop.elim hpush hcall).elim

/-- Settles O37: a write changes what its own cell reads and no other. -/
theorem storingInstructionsWriteOneCell : Obligations.StoringInstructionsWriteOneCell := by
  unfold Obligations.StoringInstructionsWriteOneCell
  intro i s t _ hwf h a ha
  rw [← pushAddress_eq] at ha
  obtain hm | ⟨-, v, hm⟩ := (completes_iff.mpr h).mem_eq <;> rw [hm]
  rw [Memory.read_write hwf, if_neg ha]

/-- Settles O45: the byte at the PC of the state after the store is the byte stored, so the next step is one of the
three cases of its look-up; the value stored is read off the rules of PUSH and CALL. -/
theorem storeIsSeenByTheNextFetch : Obligations.StoreIsSeenByTheNextFetch := by
  unfold Obligations.StoreIsSeenByTheNextFetch
  intro E i s t _ hwf h hp hr
  have hpc : t.pc.toNat ≤ 255 := by
    have := pushAddress_lt s
    omega
  refine ⟨?_, ?_, ?_, ?_⟩
  · rw [← hp]
    exact stepWith_of_no_entry hr hpc
  · rw [← hp]
    exact fun o hl => ⟨stepWith_of_entry hr hl, stepWith_of_missing_operand hr hpc hl⟩
  · rintro reg rfl r hreg
    obtain ⟨hlt, rfl⟩ := exec_push_next.mp h
    obtain rfl : (⟨reg.toNat, hlt⟩ : Fin 8) = r := Fin.ext hreg
    simp [Memory.read_write hwf]
  · intro hop
    cases completes_iff.mpr h with
    | call hlt hle => simp [Memory.read_write hwf]; omega
    | _ => cases hop

/-- Settles O48: extensionality of canonical memories, from the bound 0. -/
theorem memoriesThatReadAlikeAreEqual : Obligations.MemoriesThatReadAlikeAreEqual := by
  unfold Obligations.MemoriesThatReadAlikeAreEqual
  exact fun m n hm hn h => Memory.eq_of_read_eq hm hn h

end Sys2Proof.Machine
end

section
/-!
The encoding (30_encoding.md): the decoder and the encoder are inverse to each other, a table entry fixes the operand
bytes, and a valid opcode map uses nine of the 256 byte values.
-/

namespace Sys2Proof

variable {E : Enc} {b : Byte} {o : Op} {i : Instr}

/-! ### Decoder and encoder -/

/-- The encoder with any bytes behind it: the opcode byte, then the operand bytes (R50, R53). -/
theorem encodeWith_append (E : Enc) (i : Instr) (rest : List Byte) :
    encodeWith E i ++ rest = E.byte i.op :: (i.operands ++ rest) := rfl

/-- Under a valid map an instruction's opcode byte has its own entry, so its encoding decodes to it. -/
theorem Enc.Valid.decodeWith_encodeWith (h : E.Valid) (i : Instr) (rest : List Byte) :
    decodeWith E (encodeWith E i ++ rest) = .ok (i, rest) := by
  rw [encodeWith_append]
  exact decodeWith_operands (h.lookup_byte i.op) rest

/-- Settles O1: the entry of an instruction's opcode byte is its own, and its operand bytes decode to it. -/
theorem decodeOfEncodedInstruction : Obligations.DecodeOfEncodedInstruction := by
  unfold Obligations.DecodeOfEncodedInstruction
  exact fun E hE => hE.decodeWith_encodeWith

/-- Settles O2: what decodes is an opcode byte, the operand bytes and the rest, and only the entry's own byte is looked
up as that entry. -/
theorem decodedBytesAreTheEncoding : Obligations.DecodedBytesAreTheEncoding := by
  unfold Obligations.DecodedBytesAreTheEncoding
  intro E bytes i rest h
  obtain ⟨b, rfl, hl⟩ := decodeWith_ok h
  rw [encodeWith_append, Enc.byte_of_lookup hl]

/-- The default map meets R56. -/
theorem defaultEnc_valid : defaultEnc.Valid := by decide

/-- Settles O6: each word, written out, is the encoding of its instruction under the default map. -/
theorem defaultOpcodeWordsDecode : Obligations.DefaultOpcodeWordsDecode := by
  unfold Obligations.DefaultOpcodeWordsDecode
  have word (i : Instr) : decode (encode i ++ []) = .ok (i, []) := defaultEnc_valid.decodeWith_encodeWith i []
  exact ⟨word .halt, word (.loadImmediate 3 200), word (.printRegister 5), word (.add 2 1), word (.multiply 1 6),
    word (.push 7), word (.pop 4), word (.call 2), word .ret⟩

/-! ### The table entry and the length -/

/-- Any operand bytes, as many as the entry says, make an instruction (R57). -/
theorem Op.exists_instr_of_length (o : Op) {bs : List Byte} (h : bs.length = o.operandCount) :
    ∃ i : Instr, i.op = o ∧ i.operands = bs := by
  cases o with
  | halt | ret =>
    obtain rfl := List.length_eq_zero_iff.mp h
    exact ⟨_, Op.op_instr _ 0 0, rfl⟩
  | printRegister | push | pop | call =>
    obtain ⟨b1, rfl⟩ := List.length_eq_one_iff.mp h
    exact ⟨_, Op.op_instr _ b1 0, rfl⟩
  | loadImmediate | add | multiply =>
    obtain ⟨b1, b2, rfl⟩ := List.length_eq_two.mp h
    exact ⟨_, Op.op_instr _ b1 b2, rfl⟩

/-- Behind the byte of an entry, enough bytes decode: the first of them are the operands (R57). -/
theorem exists_decodeWith_of_entry {bs : List Byte} (hl : E.lookup b = some o) (h : o.operandCount ≤ bs.length) :
    ∃ i, decodeWith E (b :: bs) = .ok (i, bs.drop o.operandCount) ∧ i.op = o ∧
      i.operands = bs.take o.operandCount := by
  obtain ⟨i, rfl, hops⟩ := o.exists_instr_of_length (List.length_take_of_le h)
  refine ⟨i, ?_, rfl, hops⟩
  rw [← decodeWith_operands hl, hops, List.take_append_drop]

/-- The length of an encoding is a property of the entry (R57). -/
theorem length_encodeWith (E : Enc) (i : Instr) : (encodeWith E i).length = 1 + i.op.operandCount := by
  rw [encodeWith, List.length_cons, i.length_operands, Nat.add_comm]

/-! ### How many byte values are mapped -/

/-- The byte values with an entry are those the map assigns. -/
theorem Enc.isSome_lookup_iff (E : Enc) (b : Byte) : (E.lookup b).isSome = true ↔ ∃ o, E.byte o = b := by
  rw [Option.isSome_iff_ne_none, Ne, Enc.lookup_eq_none]
  exact not_forall_not

/-- Under a valid map the byte values with an entry are the bytes of the nine instructions, each listed once. -/
theorem Enc.Valid.mapped_perm (h : E.Valid) :
    ((List.range 256).filter fun n => (E.lookup (BitVec.ofNat 8 n)).isSome).Perm
      ((Op.all.map E.byte).map BitVec.toNat) := by
  have hnodup := h.1.map (f := BitVec.toNat) fun _ _ => BitVec.eq_of_toNat_eq
  refine (List.perm_ext_iff_of_nodup (List.nodup_range.filter _) hnodup).mpr fun n => ?_
  simp only [List.mem_filter, List.mem_range, Enc.isSome_lookup_iff, List.mem_map, Op.mem_all, true_and]
  constructor
  · rintro ⟨hn, o, ho⟩
    exact ⟨_, ⟨o, ho⟩, Nat.mod_eq_of_lt hn⟩
  · rintro ⟨_, ⟨o, rfl⟩, rfl⟩
    exact ⟨(E.byte o).isLt, o, ((BitVec.ofNat_toNat 8 _).trans (BitVec.setWidth_eq _)).symm⟩

/-- `0x00` is no opcode (R56). -/
theorem Enc.Valid.lookup_zero (h : E.Valid) : E.lookup 0#8 = none :=
  Enc.lookup_eq_none.mpr fun o ho => h.2 (ho ▸ List.mem_map_of_mem (Op.mem_all o))

/-- Settles O5: the mapped byte values are nine, so 247 of the 256 are left. -/
theorem unmappedByteValuesAre247 : Obligations.UnmappedByteValuesAre247 := by
  unfold Obligations.UnmappedByteValuesAre247
  intro E hE
  refine ⟨?_, hE.lookup_zero⟩
  have hmapped := hE.mapped_perm.length_eq
  have hsplit := (List.range 256).length_eq_length_filter_add fun n => (E.lookup (BitVec.ofNat 8 n)).isSome
  simp only [Option.not_isSome, List.length_range, hmapped, List.length_map] at hsplit
  exact (Nat.add_left_cancel hsplit).symm

end Sys2Proof

namespace Sys2Proof.Machine

variable {E : Enc} {s t : State} {i : Instr}

/-- Settles O4: enough bytes behind an entry decode, and a byte without one is fatal whatever memory holds elsewhere. -/
theorem tableEntryFixesInstructionLength : Obligations.TableEntryFixesInstructionLength := by
  unfold Obligations.TableEntryFixesInstructionLength
  refine ⟨fun E b bs => ⟨fun o hl hlen => ?_, fun hl => decodeWith_unknown hl bs⟩,
    fun E s m hr hpc hl hm => ?_, by decide⟩
  · obtain ⟨i, hd, rfl, hops⟩ := exists_decodeWith_of_entry hl hlen
    exact ⟨i, hd, rfl, hops, length_encodeWith E i⟩
  · have hbyte : State.opcodeByte { s with mem := m } = s.opcodeByte := hm
    rw [← hbyte] at hl ⊢
    exact stepWith_of_no_entry hr hpc hl

/-- Settles O17: the entry of the byte at the PC is the instruction's, and the bytes after it are its operands. -/
theorem stepRunsTheEncodedInstruction : Obligations.StepRunsTheEncodedInstruction := by
  unfold Obligations.StepRunsTheEncodedInstruction
  intro E s i hE hr hfit hmem
  rw [length_encodeWith] at hfit
  have hl : E.lookup s.opcodeByte = some i.op := by
    rw [show s.opcodeByte = E.byte i.op from hmem 0 (Nat.zero_lt_succ _), hE.lookup_byte]
  have hat : s.instrAt i.op = i := Instr.instr_op_of_operands
    (fun h => (hmem 1 (Nat.succ_lt_succ h)).symm) (fun h => (hmem 2 (Nat.succ_lt_succ h)).symm)
  rw [stepWith_of_entry hr hl (by omega), hat]

/-! ### Invalid register operands -/

/-- An instruction that completes has passed `CheckReg` for every register operand (R54). -/
theorem Completes.wf (h : Completes s i t) : i.WF := by
  cases h <;> simp [Instr.WF, Instr.wf, Instr.regOperands, validReg, *]

/-- Settles O25: an instruction with an invalid register operand does not complete, hence raises, and every other
report of a handler presupposes valid operands. -/
theorem firstInvalidRegisterIsReported : Obligations.FirstInvalidRegisterIsReported := by
  unfold Obligations.FirstInvalidRegisterIsReported
  intro i s hwf
  cases hx : exec i s with
  | next t => exact absurd (completes_iff.mpr hx).wf hwf
  | refused r => exact absurd hx (exec_ne_refused i s r)
  | fault f =>
    obtain ⟨b, hb, h8, rfl⟩ | ⟨h, -⟩ | ⟨h, -⟩ := exec_fault hx
    · exact ⟨b, hb, h8, rfl⟩
    · exact absurd h hwf
    · exact absurd h hwf

end Sys2Proof.Machine
end

section
/-!
What a step of any machine can be (`stepWith_cases`), what each case makes of the run, and that whatever a step raises is
a legal report. A proof about a run is an induction on its fuel with these three cases.
-/

namespace Sys2Proof.Machine

variable {E : Enc} {s t : State} {f : Fault} {n : Nat}

/-! ### The cases of a step -/

/-- A machine that does not run has no step (R80; assumption log 2). -/
theorem stepWith_of_halted (E : Enc) (h : s.running = false) : stepWith E s = .fault .halted := by
  simp [stepWith, h]

/-- A PC that names no cell: the fetch unit reads nothing (R80 step 1). -/
theorem stepWith_of_pc_ge (hr : s.running = true) (hpc : 256 ≤ s.pc.toNat) :
    stepWith E s = .fault (.outOfBounds .memFetch s.pc.toNat s.pc) := by
  have hb : s.fetchBytes = [] := if_neg (Nat.not_lt.mpr hpc)
  simp only [stepWith, hr, if_true, fetch, hb, decodeWith_nil, raise, Nat.add_zero]

/-- No step is refused, so a running machine's step answers a next state or a fault (R7). -/
theorem stepWith_cases (E : Enc) (s : State) :
    s.running = false ∨ (∃ t, stepWith E s = .next t) ∨ (s.running = true ∧ ∃ f, stepWith E s = .fault f) := by
  cases hr : s.running with
  | false => exact .inl rfl
  | true =>
    cases hx : stepWith E s with
    | next t => exact .inr (.inl ⟨t, rfl⟩)
    | fault f => exact .inr (.inr ⟨rfl, f, rfl⟩)
    | refused r => exact absurd hx (noStepIsRefused E s r)

/-! ### The run -/

/-- A run without fuel takes no step, even of a running machine (assumption log 11). -/
theorem runWith_zero (hr : s.running = true) : runWith E 0 s = .outOfFuel s := if_pos hr

/-- A step that answers next is followed by the run from its next state (R81). -/
theorem runWith_of_next (n : Nat) (h : stepWith E s = .next t) : runWith E (n + 1) s = runWith E n t := by
  simp only [runWith, (stepWith_next h).1, if_true, h]

/-- What the end of a run that started in a legal state says of the state it ended in (R146, R148). -/
def RunResult.Accounted (E : Enc) : RunResult → Prop
  | .halted t => t.running = false ∧ t.Inv
  | .fatal f t => t.running = true ∧ t.Inv ∧ stepWith E t = .fault f
  | .outOfFuel t => t.running = true ∧ t.Inv
  | .refused _ _ => False

/-- Every run from a legal state ends as `Accounted` says, since every step keeps the invariant. -/
theorem runWith_accounted (n : Nat) (hi : s.Inv) : (runWith E n s).Accounted E := by
  induction n generalizing s with
  | zero =>
    cases hr : s.running with
    | false => rw [runWith_of_halted E 0 hr]; exact ⟨hr, hi⟩
    | true => rw [runWith_zero hr]; exact ⟨hr, hi⟩
  | succ n ih =>
    obtain hr | ⟨t, h⟩ | ⟨hr, f, h⟩ := stepWith_cases E s
    · rw [runWith_of_halted E (n + 1) hr]; exact ⟨hr, hi⟩
    · rw [runWith_of_next n h]; exact ih (everyStepKeepsTheInvariant E s t hi h)
    · rw [runWith_of_fault n hr h]; exact ⟨hr, hi, h⟩

/-! ### Reports -/

/-- Where the PC names a cell, the entry is that of the byte there. -/
theorem State.entry_eq_lookup (hpc : s.pc.toNat ≤ 255) : s.entry E = E.lookup s.opcodeByte := if_pos hpc

/-- What a handler raises is legal where its instruction has been fetched whole (R142, R145(5) to (7)). -/
theorem legalReport_of_exec {o : Op} (hl : s.entry E = some o) (hfit : s.pc.toNat + o.operandCount ≤ 255)
    (h : exec (s.instrAt o) s = .fault f) : f.LegalReport E s := by
  have hop : (s.instrAt o).op = o := Op.op_instr o _ _
  obtain ⟨b, hb, h8, rfl⟩ | ⟨hwf, hps, hsp, rfl⟩ | ⟨hwf, hcall, hpc, rfl⟩ := exec_fault h
  · exact ⟨rfl, h8, o, b, hl, hfit, rfl, hb⟩
  · exact ⟨rfl, rfl, hsp, o, hop ▸ hps, hl, hfit, hwf⟩
  · obtain rfl : o = .call := hop.symm.trans hcall
    have hpc' : s.pc.toNat = 254 := le_antisymm (Nat.le_of_add_le_add_right hfit) hpc
    exact ⟨rfl, by rw [hpc'], hpc', hl, hwf⟩

/-- Whatever a step of a running machine raises is a legal report: the fetch unit's two reports, or a handler's. -/
theorem legalReport_of_stepWith (hi : s.Inv) (hr : s.running = true) (h : stepWith E s = .fault f) :
    f.LegalReport E s := by
  obtain ⟨-, hpc256⟩ := hi
  by_cases hpc : s.pc.toNat ≤ 255
  · cases hl : E.lookup s.opcodeByte with
    | none =>
      rw [stepWith_of_no_entry hr hpc hl] at h
      cases h
      exact ⟨rfl, rfl, hpc, hl⟩
    | some o =>
      have he : s.entry E = some o := (State.entry_eq_lookup hpc).trans hl
      by_cases hfit : s.pc.toNat + o.operandCount ≤ 255
      · exact legalReport_of_exec he hfit (stepWith_of_entry hr hl hfit ▸ h)
      · have hshort : 256 ≤ s.pc.toNat + o.operandCount := Nat.lt_of_not_le hfit
        rw [stepWith_of_missing_operand hr hpc hl hshort] at h
        cases h
        exact ⟨rfl, rfl, .inr ⟨o, he, hshort⟩⟩
  · have hpc' : s.pc.toNat = 256 := le_antisymm hpc256 (Nat.lt_of_not_le hpc)
    rw [stepWith_of_pc_ge hr hpc'.ge] at h
    cases h
    exact ⟨rfl, hpc', .inl hpc'⟩

/-- Only the stop of a machine that does not run has the code 0, and it is no report (D13). -/
theorem Fault.LegalReport.code_ne_zero (h : f.LegalReport E s) : f.code ≠ 0 := by
  cases f with
  | unknownOpcode value address => exact Nat.one_ne_zero
  | outOfBounds kind index pc => exact two_ne_zero
  | halted => exact h.elim

end Sys2Proof.Machine
end

section
/-!
The execution loop and its blocks (40_core_loop_and_blocks.md): the dispatch table, the register file, the step, the
placing of a table word, the run.
-/

namespace Sys2Proof.Machine

/-! ### The blocks -/

/-- Settles O3: under a valid map `lookup` inverts `byte`, and a byte without an entry raises. -/
theorem dispatchTableHasExactlyNineEntries : Obligations.DispatchTableHasExactlyNineEntries := by
  unfold Obligations.DispatchTableHasExactlyNineEntries
  refine ⟨⟨defaultEnc_valid, by decide⟩, fun E hE => ⟨fun s hr hpc hl => ?_, fun b o => ⟨Enc.byte_of_lookup, ?_⟩,
    fun b => Enc.lookup_eq_none, rfl, by decide, Op.mem_all⟩⟩
  · exact ⟨_, stepWith_of_no_entry hr hpc hl⟩
  · rintro rfl
    exact hE.lookup_byte o

/-- Settles O46: the laws of `reg` after `setReg`, and the two cases of `withReg`. -/
theorem registerFileContract : Obligations.RegisterFileContract := by
  unfold Obligations.RegisterFileContract
  refine ⟨fun s i v => ⟨rfl, ?_, fun j hj => ?_⟩, fun b s k => ⟨fun h => withReg_invalid h s k, fun r hr => ?_⟩⟩
  · rw [State.reg_setReg, if_pos rfl]
  · rw [State.reg_setReg, if_neg hj.symm]
  · have hlt : b.toNat < 8 := hr ▸ r.isLt
    obtain rfl : (⟨b.toNat, hlt⟩ : Fin 8) = r := Fin.ext hr
    exact withReg_valid hlt s k

/-! ### The step -/

/-- Settles O16, by the model's law of a decoded step. -/
theorem stepRunsTheDecodedInstruction : Obligations.StepRunsTheDecodedInstruction := by
  unfold Obligations.StepRunsTheDecodedInstruction
  exact ⟨fun s i rest hr hd => stepWith_decoded hr hd, fun E s i rest hr hd => stepWith_decoded hr hd⟩

/-- Settles O19: the first missing operand byte is the one at 256, so it is the first at PC 255 and the second at
PC 254. -/
theorem stepTestsInTheSpecsOrder : Obligations.StepTestsInTheSpecsOrder := by
  unfold Obligations.StepTestsInTheSpecsOrder
  refine fun E s hr => ⟨stepWith_of_pc_ge hr, stepWith_of_no_entry hr, fun o hpc hl => ⟨?_, ?_, ?_⟩⟩
  · intro hcount hend
    rw [show s.pc.toNat + 1 = 256 by omega]
    exact stepWith_of_missing_operand hr hpc hl (by omega)
  · intro hcount hfirst hend
    rw [show s.pc.toNat + 2 = 256 by omega]
    exact stepWith_of_missing_operand hr hpc hl (by omega)
  · exact stepWith_of_entry hr hl

/-! ### The placing of a table word -/

/-- A read after bytes have been written from `a` on: below `a` and behind the bytes what it gave before, else the byte
written there. -/
theorem Memory.read_writeBytes {m : Memory} (bytes : List Byte) {a : Nat} (hwf : m.wf = true)
    (ha : a + bytes.length ≤ 256) (b : Nat) :
    (m.writeBytes a bytes).read b = if b < a then m.read b else bytes[b - a]?.getD (m.read b) := by
  induction bytes generalizing m a with
  | nil => simp [Memory.writeBytes]
  | cons v vs ih =>
    rw [List.length_cons] at ha
    rw [Memory.writeBytes, ih (Memory.wf_write v hwf (by omega)) (by omega), Memory.read_write hwf]
    obtain hlt | rfl | hgt := lt_trichotomy b a
    · rw [if_pos (by omega), if_neg hlt.ne, if_pos hlt]
    · simp
    · rw [if_neg (by omega), if_neg hgt.ne', if_neg hgt.not_gt, show b - a = b - (a + 1) + 1 by omega,
        List.getElem?_cons_succ]

/-- The longest instruction fits where a word is placed. -/
theorem fetchWordPc_le (pc : Pc) : (fetchWordPc pc).toNat + 3 ≤ 256 := by
  unfold fetchWordPc
  split
  · assumption
  · decide

/-- The fetch unit reads the three bytes that were placed (assumption log 9). -/
theorem fetchBytes_placeAtFetch {s : State} {bytes : List Byte} (hwf : s.mem.wf = true) (hb : bytes.length = 3) :
    (placeAtFetch s bytes).fetchBytes = bytes := by
  have hfit : (placeAtFetch s bytes).pc.toNat + 3 ≤ 256 := fetchWordPc_le s.pc
  refine List.ext_getElem ?_ fun k hk hk' => ?_
  · rw [State.length_fetchBytes, hb]
    omega
  · have hread := Memory.read_writeBytes bytes hwf (hb ▸ hfit) ((placeAtFetch s bytes).pc.toNat + k)
    rw [if_neg (by omega), Nat.add_sub_cancel_left, List.getElem?_eq_getElem hk'] at hread
    exact (Memory.getElem_bytesFrom ..).trans hread

/-- A word that stands for an instruction is three bytes that decode to it. -/
theorem decode_of_decodeTableWord {nbits w : Nat} {i : Instr} (h : decodeTableWord nbits w = some i) :
    ∃ rest, decode (tableBytes nbits w) = .ok (i, rest) := by
  unfold decodeTableWord at h
  split at h
  · cases h
    exact ⟨_, ‹_›⟩
  · cases h

/-- Settles O18: the bytes the next fetch reads are the word's. -/
theorem placedTableWordIsRunNext : Obligations.PlacedTableWordIsRunNext := by
  unfold Obligations.PlacedTableWordIsRunNext
  intro s nbits w i ⟨hwf, _⟩ h
  obtain ⟨rest, hd⟩ := decode_of_decodeTableWord h
  have hbytes : (s.withFetchWord nbits w).fetchBytes = tableBytes nbits w := fetchBytes_placeAtFetch hwf rfl
  exact stepWith_decoded rfl (hbytes ▸ hd)

/-! ### The run -/

/-- Settles O21: the step's own test of the flag, and the run's. -/
theorem haltedMachineTakesNoStep : Obligations.HaltedMachineTakesNoStep := by
  unfold Obligations.HaltedMachineTakesNoStep
  refine fun E s hr => ⟨stepWith_of_halted E hr, fun n => ⟨runWith_of_halted E n hr, ?_⟩⟩
  rw [runWith_of_halted E n hr]
  rfl

/-- Settles O12: the run's end is accounted for, and a legal report's code is not 0. -/
theorem runOutcomeTellsHaltFromFatal : Obligations.RunOutcomeTellsHaltFromFatal := by
  unfold Obligations.RunOutcomeTellsHaltFromFatal
  refine fun E n s => ⟨fun f hr h => runWith_of_fault n hr h, fun t h => runWith_of_next n h, ?_, ?_⟩
  · intro t hi hrun
    have hend := runWith_accounted (E := E) n hi
    rw [hrun] at hend ⊢
    obtain ⟨hr, hti⟩ := hend
    exact ⟨hr, hti, rfl⟩
  · intro f t hi hrun
    have hend := runWith_accounted (E := E) n hi
    rw [hrun] at hend ⊢
    obtain ⟨hr, hti, hf⟩ := hend
    have hlegal := legalReport_of_stepWith hti hr hf
    exact ⟨hr, hti, hf, hlegal, f.code, rfl, hlegal.code_ne_zero⟩

/-- Settles O13, by induction on the fuel: a step that answers next takes one unit of either run's. -/
theorem moreFuelGivesTheSameOutcome : Obligations.MoreFuelGivesTheSameOutcome := by
  unfold Obligations.MoreFuelGivesTheSameOutcome
  intro E n k s hend
  induction n generalizing s with
  | zero =>
    have hr : s.running = false := Bool.eq_false_iff.mpr fun hr => hend s (runWith_zero hr)
    rw [runWith_of_halted E _ hr, runWith_of_halted E _ hr]
  | succ n ih =>
    rw [Nat.succ_add]
    obtain hr | ⟨t, h⟩ | ⟨hr, f, h⟩ := stepWith_cases E s
    · rw [runWith_of_halted E _ hr, runWith_of_halted E _ hr]
    · rw [runWith_of_next n h] at hend ⊢
      rw [runWith_of_next (n + k) h, ih t hend]
    · rw [runWith_of_fault _ hr h, runWith_of_fault _ hr h]

/-- The host's run answers next exactly when its first step does and the run from there does. -/
theorem hostRun_succ_eq_next {M : Host.Core} {n : Nat} {s t : M.State} :
    M.run (n + 1) s = .next t ↔ ∃ u, M.step s = .next u ∧ M.run n u = .next t := by
  rw [Host.Core.run]
  cases M.step s <;> simp

/-- Settles O14, by induction on the number of steps. -/
theorem runAgreesWithTheHostsRun : Obligations.RunAgreesWithTheHostsRun := by
  unfold Obligations.RunAgreesWithTheHostsRun
  intro n s t h
  induction n generalizing s with
  | zero =>
    obtain rfl := next_eq_next.mp h
    rfl
  | succ n ih =>
    obtain ⟨u, hu, hrest⟩ := hostRun_succ_eq_next.mp h
    exact (runWith_of_next n hu).trans (ih u hrest)

/-- Settles O15: a machine that does not run has nothing to go wrong, a step that answers next hands the run on, and a
step that raises ends it at once. -/
theorem safeRunUnfoldsByOneStep : Obligations.SafeRunUnfoldsByOneStep := by
  unfold Obligations.SafeRunUnfoldsByOneStep
  refine fun E s => ⟨fun hsafe => ?_, ?_⟩
  · obtain hr | ⟨t, h⟩ | ⟨hr, f, h⟩ := stepWith_cases E s
    · exact .inl hr
    · exact .inr ⟨t, h, fun n f u hrun => hsafe (n + 1) f u ((runWith_of_next n h).trans hrun)⟩
    · exact absurd (runWith_of_fault 0 hr h) (hsafe 1 f s)
  · rintro (hr | ⟨t, h, hsafe⟩) n f u hrun
    · rw [runWith_of_halted E n hr] at hrun
      cases hrun
    · cases n with
      | zero =>
        rw [runWith_zero (stepWith_next h).1] at hrun
        cases hrun
      | succ n => exact hsafe n f u ((runWith_of_next n h).symm.trans hrun)

end Sys2Proof.Machine
end

section
/-!
HALT, LOAD_IMMEDIATE and PRINT_REGISTER (41_system_and_data.md): what each leaves behind, and the reports of its step.
-/

namespace Sys2Proof

/-- HALT alone has the identity HALT. -/
theorem Instr.op_eq_halt_iff {i : Instr} : i.op = .halt ↔ i = .halt := by
  cases i <;> simp [Instr.op]

end Sys2Proof

namespace Sys2Proof.Machine

variable {reg : Byte} {r : Fin 8}

/-- LOAD_IMMEDIATE is `CheckReg`, then the write and the advance (R101). -/
theorem exec_loadImmediate (reg value : Byte) (s : State) : exec (.loadImmediate reg value) s =
    withReg reg s fun r => .next ((s.setReg r value).advance 3) := rfl

/-- PRINT_REGISTER is `CheckReg`, then the emission and the advance (R102). -/
theorem exec_printRegister (reg : Byte) (s : State) : exec (.printRegister reg) s =
    withReg reg s fun r => .next ((s.emit (s.reg r)).advance 2) := rfl

/-- `CheckReg` goes on with the index the operand byte names (R54), for a handler stated over that index. -/
theorem withReg_of_index (hr : reg.toNat = r.val) (s : State) (k : Fin 8 → StepOutcome) : withReg reg s k = k r := by
  obtain ⟨-, hvalid⟩ := registerFileContract.2 reg s k
  exact hvalid r hr

/-- The sink shows an emitted value as one more line (R88). -/
@[simp] theorem State.sinkLines_emit (s : State) (v : Byte) : (s.emit v).sinkLines = s.sinkLines ++ [sinkLine v] :=
  List.map_append

/-- Settles O26: HALT's next state has the flag clear, so that a run from it takes no step; the flag of any other
instruction's next state is the old one; and HALT has no operand byte to miss. -/
theorem haltClearsRunning : Obligations.HaltClearsRunning := by
  unfold Obligations.HaltClearsRunning
  refine ⟨rfl, fun s => ⟨?_, fun i t hi h => ?_, fun E hr => ⟨fun hpc hl => ?_, fun hpc => ?_⟩⟩⟩
  · have hc : Completes s .halt (s.clearRunning.advance 1) := .halt
    refine ⟨_, completes_iff.mp hc, rfl, hc.pc_toNat_of_fits nofun nofun, fun _ => rfl, fun _ => rfl, rfl,
      fun E n => ?_⟩
    rw [runWith_of_halted E n rfl]
    exact ⟨rfl, rfl⟩
  · have hop : i.op ≠ .halt := fun hop => hi (Instr.op_eq_halt_iff.mp hop)
    rw [(completes_iff.mpr h).running_eq, decide_eq_true hop, Bool.and_true]
  · exact stepWith_of_entry hr hl hpc
  · rw [stepWith_of_pc_ge hr hpc.ge, hpc]

/-- Settles O27: the operand byte names the register written, or `CheckReg` raises; at PC 255 the first operand byte
is missing, at PC 254 the second. -/
theorem loadImmediateWritesItsRegister : Obligations.LoadImmediateWritesItsRegister := by
  unfold Obligations.LoadImmediateWritesItsRegister
  refine fun reg value s => ⟨rfl, fun r hr => ?_, fun h => ?_, fun E hrun hl => ?_⟩
  · have hx : exec (.loadImmediate reg value) s = .next ((s.setReg r value).advance 3) := by
      rw [exec_loadImmediate, withReg_of_index hr]
    refine ⟨_, hx, ?_, fun j hj => ?_, fun _ => rfl, rfl, rfl, fun hpc => ?_⟩
    · rw [State.advance_reg, State.reg_setReg, if_pos rfl]
    · rw [State.advance_reg, State.reg_setReg, if_neg hj.symm]
    · exact (completes_iff.mpr hx).pc_toNat_of_fits nofun nofun (Nat.add_le_add_right hpc 2)
  · rw [exec_loadImmediate, withReg_invalid h]
  · obtain ⟨-, -, hentry⟩ := stepTestsInTheSpecsOrder E s hrun
    refine ⟨fun hpc => ?_, fun hpc => ?_⟩
    · obtain ⟨hfirst, -⟩ := hentry .loadImmediate hpc.le hl
      exact hfirst (by decide) (by omega)
    · obtain ⟨-, hsecond, -⟩ := hentry .loadImmediate (by omega) hl
      exact hsecond rfl (by omega) (by omega)

/-- Settles O28: the operand byte names the register emitted, or `CheckReg` raises; at PC 255 the operand byte is
missing. -/
theorem printRegisterEmitsItsRegister : Obligations.PrintRegisterEmitsItsRegister := by
  unfold Obligations.PrintRegisterEmitsItsRegister
  refine fun reg s => ⟨rfl, fun r hr => ?_, fun h => ?_, fun E hrun hl hpc => ?_⟩
  · have hx : exec (.printRegister reg) s = .next ((s.emit (s.reg r)).advance 2) := by
      rw [exec_printRegister, withReg_of_index hr]
    refine ⟨_, hx, rfl, State.sinkLines_emit s (s.reg r), fun _ => rfl, fun _ => rfl, rfl, fun hpc => ?_⟩
    exact (completes_iff.mpr hx).pc_toNat_of_fits nofun nofun (Nat.add_le_add_right hpc 1)
  · rw [exec_printRegister, withReg_invalid h]
  · obtain ⟨-, -, hentry⟩ := stepTestsInTheSpecsOrder E s hrun
    obtain ⟨hfirst, -⟩ := hentry .printRegister hpc.le hl
    exact hfirst (by decide) (by omega)

end Sys2Proof.Machine
end

section
/-!
ADD, MULTIPLY and the arithmetic laws (42_alu.md). The two instructions are one shape, `aluRegReg`, so what its outcome
is and what it leaves unchanged is said once, for either operation of the unit.
-/

namespace Sys2Proof.Machine

variable {E : Enc} {s : State} {o : Op} {op : AluOp} {regA regB : Byte} {a b : Fin 8}

/-! ### The arithmetic laws (R112) -/

theorem alu_add_toNat (a b : Byte) : (alu .add a b).toNat = (a.toNat + b.toNat) % 256 := BitVec.toNat_ofNat _ _

theorem alu_mul_toNat (a b : Byte) : (alu .mul a b).toNat = (a.toNat * b.toNat) % 256 := BitVec.toNat_ofNat _ _

/-- The decrement wraps from 0 to 255 (R43): the result is the address a push writes, whose law this is. -/
theorem State.decSp_reg_toNat (s : State) : (s.decSp.reg 7).toNat = ((s.reg 7).toNat + 255) % 256 := by
  rw [State.reg_decSp, if_pos rfl]
  exact pushAddress_eq s

/-- The increment wraps from 255 to 0 (R43). -/
theorem State.incSp_reg_toNat (s : State) : (s.incSp.reg 7).toNat = ((s.reg 7).toNat + 1) % 256 := by
  rw [State.reg_incSp, if_pos rfl]
  exact BitVec.toNat_add _ _

/-- Settles O47, by the law of each of the four places. -/
theorem arithmeticIsModulo256 : Obligations.ArithmeticIsModulo256 := by
  unfold Obligations.ArithmeticIsModulo256
  exact ⟨alu_add_toNat, alu_mul_toNat, State.decSp_reg_toNat, State.incSp_reg_toNat⟩

/-! ### The shape ADD and MULTIPLY share (R110, R111) -/

/-- ADD is the shared shape with the sum (R110). -/
theorem exec_add (regA regB : Byte) (s : State) : exec (.add regA regB) s = aluRegReg .add regA regB s := rfl

/-- MULTIPLY is the shared shape with the product (R111). -/
theorem exec_multiply (regA regB : Byte) (s : State) : exec (.multiply regA regB) s = aluRegReg .mul regA regB s := rfl

/-- An advance that does not pass the width of the PC adds to its number. -/
theorem State.advance_pc_toNat {n : Nat} (h : s.pc.toNat + n < 512) : (s.advance n).pc.toNat = s.pc.toNat + n := by
  rw [State.advance_pc, BitVec.toNat_ofNat, Nat.mod_eq_of_lt h]

/-- With two valid operand bytes the first register takes the unit's result of the two old values, and nothing else
but the PC changes. -/
theorem aluRegReg_effect (op : AluOp) (hA : regA.toNat = a.val) (hB : regB.toNat = b.val) (s : State) :
    ∃ t, aluRegReg op regA regB s = .next t ∧ t.reg a = alu op (s.reg a) (s.reg b) ∧
      (∀ j : Fin 8, j ≠ a → t.reg j = s.reg j) ∧ (∀ c, t.mem.read c = s.mem.read c) ∧
      t.out = s.out ∧ t.running = s.running ∧ (s.pc.toNat ≤ 253 → t.pc.toNat = s.pc.toNat + 3) := by
  have hx : aluRegReg op regA regB s = .next ((s.setReg a (alu op (s.reg a) (s.reg b))).advance 3) := by
    rw [aluRegReg, withReg_of_index hA, withReg_of_index hB]
  refine ⟨_, hx, ?_, fun j hj => ?_, fun _ => rfl, rfl, rfl, fun hpc => State.advance_pc_toNat ?_⟩
  · rw [State.advance_reg, State.reg_setReg, if_pos rfl]
  · rw [State.advance_reg, State.reg_setReg, if_neg hj.symm]
  · rw [State.setReg_pc]
    omega

/-- The first operand byte is tested before the second is looked at (R145(5)). -/
theorem aluRegReg_of_first_invalid (hA : 8 ≤ regA.toNat) :
    aluRegReg op regA regB s = .fault (.outOfBounds .regIndex regA.toNat s.pc) := by
  rw [aluRegReg, withReg_invalid hA]

/-- Behind a valid first operand byte the second is tested (R145(6)). -/
theorem aluRegReg_of_second_invalid (hA : regA.toNat ≤ 7) (hB : 8 ≤ regB.toNat) :
    aluRegReg op regA regB s = .fault (.outOfBounds .regIndex regB.toNat s.pc) := by
  rw [aluRegReg, withReg_valid (Nat.lt_succ_of_le hA), withReg_invalid hB]

/-- An entry with two operand bytes at PC 254 or 255: one of them is at 256 (R80 step 3). -/
theorem stepWith_of_two_operands_at_end (hr : s.running = true) (hl : E.lookup s.opcodeByte = some o)
    (hcount : o.operandCount = 2) (hpc : s.pc.toNat = 254 ∨ s.pc.toNat = 255) :
    stepWith E s = .fault (.outOfBounds .memFetch 256 s.pc) :=
  stepWith_of_missing_operand hr (by omega) hl (by omega)

/-- Settles O29: the shared shape with the unit's sum, and an entry with two operand bytes. -/
theorem addWrapsModulo256 : Obligations.AddWrapsModulo256 := by
  unfold Obligations.AddWrapsModulo256
  intro regA regB s
  rw [exec_add]
  refine ⟨rfl, fun a b hA hB => ?_, aluRegReg_of_first_invalid, aluRegReg_of_second_invalid,
    fun E hr hl hpc => stepWith_of_two_operands_at_end hr hl rfl hpc⟩
  obtain ⟨t, hx, hval, hframe⟩ := aluRegReg_effect .add hA hB s
  exact ⟨t, hx, hval ▸ alu_add_toNat _ _, hframe⟩

/-- Settles O30: the shared shape with the unit's product, and an entry with two operand bytes. -/
theorem multiplyWrapsModulo256 : Obligations.MultiplyWrapsModulo256 := by
  unfold Obligations.MultiplyWrapsModulo256
  intro regA regB s
  rw [exec_multiply]
  refine ⟨rfl, fun a b hA hB => ?_, aluRegReg_of_first_invalid, aluRegReg_of_second_invalid,
    fun E hr hl hpc => stepWith_of_two_operands_at_end hr hl rfl hpc⟩
  obtain ⟨t, hx, hval, hframe⟩ := aluRegReg_effect .mul hA hB s
  exact ⟨t, hx, hval ▸ alu_mul_toNat _ _, hframe⟩

end Sys2Proof.Machine
end

section
/-!
PUSH and POP (43_stack.md): what each leaves behind, and why a pop undoes the push of the same register.
-/

namespace Sys2Proof.Machine

variable {s : State}

/-! ### The two handlers -/

/-- PUSH is `CheckReg`, then the decrement, the store of the register read after it, and the advance (R120). -/
theorem exec_push (reg : Byte) (s : State) : exec (.push reg) s =
    withReg reg s fun r => .next ((s.decSp.store (pushAddress s) (s.decSp.reg r)).advance 2) := by
  simp only [exec, execPush, pushByte_eq]

/-- POP is `CheckReg`, then the underflow test, the load, the increment of the `x[7]` current then, and the advance
(R121). -/
theorem exec_pop (reg : Byte) (s : State) : exec (.pop reg) s =
    withReg reg s fun r => checkStack s (.next ((s.setReg r (s.mem.read (s.reg 7).toNat)).incSp.advance 2)) := by
  simp only [exec, execPop, memRead_byte]
  rfl

/-- A stack pointer of `0x00` does not pass the underflow test (R44). -/
theorem checkStack_of_empty (h : s.reg 7 = 0#8) (k : StepOutcome) :
    checkStack s k = .fault (.outOfBounds .stackRead 256 s.pc) :=
  checkStack_eq_fault.mpr (.inl ⟨h, rfl⟩)

/-- A stack pointer other than `0x00` does (R44). -/
theorem checkStack_of_nonempty (h : s.reg 7 ≠ 0#8) (t : State) : checkStack s (.next t) = .next t :=
  checkStack_eq_next.mpr ⟨h, rfl⟩

/-- Settles O31: the store is read back at its own cell, and every other cell and register is framed. -/
theorem pushStoresBelowTheStackPointer : Obligations.PushStoresBelowTheStackPointer := by
  unfold Obligations.PushStoresBelowTheStackPointer
  refine fun reg s hwf => ⟨fun r hr => ?_, fun h => ?_⟩
  · have hx : exec (.push reg) s = .next ((s.decSp.store (pushAddress s) (s.decSp.reg r)).advance 2) := by
      rw [exec_push, withReg_of_index hr]
    have hread (a : Nat) := Memory.read_write hwf (pushAddress s) (s.decSp.reg r) a
    refine ⟨_, hx, s.decSp_reg_toNat, fun j hj => ?_, (hread _).trans (if_pos rfl), ?_,
      fun a ha => (hread a).trans (if_neg ha), rfl, rfl, fun hpc => ?_⟩
    · rw [State.advance_reg, State.store_reg, State.reg_decSp, if_neg hj]
    · exact (pushAddress_eq s).trans s.decSp_reg_toNat.symm
    · exact (completes_iff.mpr hx).pc_toNat_of_fits nofun nofun (Nat.add_le_add_right hpc 1)
  · rw [exec_push, withReg_invalid h]

/-- Settles O32: the increment reads `x[7]` after the load, so it adds to the old stack pointer, or for POP R7 to the
loaded value. -/
theorem popLoadsFromTheStackPointer : Obligations.PopLoadsFromTheStackPointer := by
  unfold Obligations.PopLoadsFromTheStackPointer
  refine fun reg s => ⟨fun r hr hsp => ?_, fun hreg hsp => ?_, fun h => ?_⟩
  · have hx : exec (.pop reg) s = .next ((s.setReg r (s.mem.read (s.reg 7).toNat)).incSp.advance 2) := by
      rw [exec_pop, withReg_of_index hr, checkStack_of_nonempty hsp]
    refine ⟨_, hx, fun hr7 => ⟨?_, ?_⟩, fun hr7 => ?_, fun j hjr hj7 => ?_, fun _ => rfl, rfl, rfl, fun hpc => ?_⟩
    · rw [State.advance_reg, State.reg_incSp, if_neg hr7, State.reg_setReg, if_pos rfl]
    · rw [State.advance_reg, State.incSp_reg_toNat, State.reg_setReg, if_neg hr7]
    · rw [State.advance_reg, State.incSp_reg_toNat, State.reg_setReg, if_pos hr7]
    · rw [State.advance_reg, State.reg_incSp, if_neg hj7, State.reg_setReg, if_neg hjr.symm]
    · exact (completes_iff.mpr hx).pc_toNat_of_fits nofun nofun (Nat.add_le_add_right hpc 1)
  · rw [exec_pop, withReg_valid (Nat.lt_succ_of_le hreg), checkStack_of_empty hsp]
  · rw [exec_pop, withReg_invalid h]

/-! ### PUSH, then POP -/

/-- Incrementing a decremented stack pointer gives it back. -/
theorem eq_of_toNat_inc_dec {a b c : Byte} (hb : b.toNat = (a.toNat + 255) % 256) (hc : c.toNat = (b.toNat + 1) % 256) :
    c = a := by
  bv_omega

/-- A decremented stack pointer is `0x00` just when it was 1. -/
theorem eq_zero_iff_of_toNat_dec {a b : Byte} (hb : b.toNat = (a.toNat + 255) % 256) : b = 0#8 ↔ a = 1#8 := by
  bv_omega

/-- Settles O43, from the statements about PUSH and POP alone: the cell loaded is the cell stored, so the load writes
back what the register held after the decrement (for R7, the decremented stack pointer), and the increment undoes the
decrement. -/
theorem pushThenPopRestoresRegisters : Obligations.PushThenPopRestoresRegisters := by
  unfold Obligations.PushThenPopRestoresRegisters
  intro reg s hwf hreg
  obtain ⟨r, hr⟩ : ∃ r : Fin 8, reg.toNat = r.val := ⟨⟨reg.toNat, Nat.lt_succ_of_le hreg⟩, rfl⟩
  obtain ⟨hpushes, -⟩ := pushStoresBelowTheStackPointer reg s hwf
  obtain ⟨t, hpush, hdec, htreg, hcell, haddr, htmem, -⟩ := hpushes r hr
  obtain ⟨hpop, hempty, -⟩ := popLoadsFromTheStackPointer reg t
  have hzero : t.reg 7 = 0#8 ↔ s.reg 7 = 1#8 := eq_zero_iff_of_toNat_dec hdec
  refine ⟨t, hpush, fun hsp => ?_, fun hsp => hempty hreg (hzero.mpr hsp)⟩
  obtain ⟨u, hx, hother, hseven, hureg, humem, -⟩ := hpop r hr (hzero.not.mpr hsp)
  have hload : t.mem.read (t.reg 7).toNat = t.reg r := haddr ▸ hcell
  refine ⟨u, hx, fun j => ?_, fun a ha => (humem a).trans (htmem a ha)⟩
  by_cases hj7 : j = 7
  · have hinc : (u.reg 7).toNat = ((t.reg 7).toNat + 1) % 256 := by
      by_cases hr7 : r = 7
      · rw [hseven hr7, hload, hr7]
      · exact (hother hr7).2
    rw [hj7, eq_of_toNat_inc_dec hdec hinc]
  · by_cases hjr : j = r
    · subst hjr
      rw [(hother hj7).1, hload, htreg j hj7]
    · rw [hureg j hjr hj7, htreg j hj7]

end Sys2Proof.Machine
end

section
/-!
CALL and RETURN (44_call_return.md): what each leaves behind, and why a return undoes a call.
-/

namespace Sys2Proof.Machine

variable {s : State}

/-! ### The two handlers -/

/-- CALL is `CheckReg`, then the return-address test, the decrement, the store of the return address, and the jump to
the register read after the decrement (R130). -/
theorem exec_call (reg : Byte) (s : State) : exec (.call reg) s =
    withReg reg s fun r => checkReturnAddress s fun ra =>
      .next ((s.decSp.store (pushAddress s) ra).loadPc (s.decSp.reg r)) := by
  simp only [exec, execCall, pushByte_eq, State.store_reg]

/-- RETURN is the underflow test, then the load, the increment and the jump (R131). -/
theorem exec_ret (s : State) : exec .ret s =
    checkStack s (.next (s.incSp.loadPc (s.mem.read (s.reg 7).toNat))) := by
  simp only [exec, execRet, memRead_byte]
  rfl

/-- A return address that is a cell passes the test, as the byte it fits (R130). -/
theorem checkReturnAddress_of_cell (h : s.pc.toNat ≤ 253) (k : Byte → StepOutcome) :
    checkReturnAddress s k = k (BitVec.ofNat 8 (s.pc.toNat + 2)) :=
  if_neg (by simp only [Config.N]; omega)

/-- A return address beyond memory does not (R130). -/
theorem checkReturnAddress_of_no_cell (h : 254 ≤ s.pc.toNat) (k : Byte → StepOutcome) :
    checkReturnAddress s k = .fault (.outOfBounds .returnAddress (s.pc.toNat + 2) s.pc) :=
  checkReturnAddress_eq_fault.mpr (.inl ⟨h, rfl⟩)

/-- A load of the PC keeps the number of the byte loaded (R76). -/
theorem State.loadPc_pc_toNat (s : State) (t : Byte) : (s.loadPc t).pc.toNat = t.toNat :=
  BitVec.toNat_setWidth_of_le (by decide)

/-- Settles O33: the return address is a cell's, so it fits the byte stored; it is read back at its own cell, and every
other cell and register is framed. -/
theorem callPushesReturnAddressAndJumps : Obligations.CallPushesReturnAddressAndJumps := by
  unfold Obligations.CallPushesReturnAddressAndJumps
  refine fun reg s hwf => ⟨fun r hr hpc => ?_, fun hreg hpc => ?_, fun h => ?_⟩
  · have hx : exec (.call reg) s = .next
        ((s.decSp.store (pushAddress s) (BitVec.ofNat 8 (s.pc.toNat + 2))).loadPc (s.decSp.reg r)) := by
      rw [exec_call, withReg_of_index hr, checkReturnAddress_of_cell hpc]
    have hread (a : Nat) := Memory.read_write hwf (pushAddress s) (BitVec.ofNat 8 (s.pc.toNat + 2)) a
    refine ⟨_, hx, s.decSp_reg_toNat, fun j hj => ?_, ?_, ?_, fun a ha => (hread a).trans (if_neg ha), rfl, rfl,
      State.loadPc_pc_toNat _ _⟩
    · rw [State.loadPc_reg, State.store_reg, State.reg_decSp, if_neg hj]
    · rw [State.loadPc_mem, State.store_mem, State.decSp_mem, hread, if_pos rfl, BitVec.toNat_ofNat,
        Nat.mod_eq_of_lt (by omega)]
    · exact (pushAddress_eq s).trans s.decSp_reg_toNat.symm
  · rw [exec_call, withReg_valid (Nat.lt_succ_of_le hreg), checkReturnAddress_of_no_cell hpc.ge, hpc]
  · rw [exec_call, withReg_invalid h]

/-- Settles O34: behind the underflow test the jump keeps the number of the byte loaded, and the increment touches
`x[7]` only. -/
theorem returnJumpsToTheTopOfStack : Obligations.ReturnJumpsToTheTopOfStack := by
  unfold Obligations.ReturnJumpsToTheTopOfStack
  refine fun s => ⟨fun hsp => ?_, fun hsp => ?_⟩
  · have hx : exec .ret s = .next (s.incSp.loadPc (s.mem.read (s.reg 7).toNat)) := by
      rw [exec_ret, checkStack_of_nonempty hsp]
    refine ⟨_, hx, State.loadPc_pc_toNat _ _, s.incSp_reg_toNat, fun j hj => ?_, fun _ => rfl, rfl, rfl⟩
    rw [State.loadPc_reg, State.reg_incSp, if_neg hj]
  · rw [exec_ret, checkStack_of_empty hsp]

/-! ### CALL, then RETURN -/

/-- Settles O44, from the statements about CALL and RETURN alone: the cell RETURN loads is the one CALL stored the
return address in, and the increment undoes the decrement. -/
theorem callThenReturnRestoresPcAndSp : Obligations.CallThenReturnRestoresPcAndSp := by
  unfold Obligations.CallThenReturnRestoresPcAndSp
  intro reg s hwf hreg hpc
  obtain ⟨hcalls, -⟩ := callPushesReturnAddressAndJumps reg s hwf
  obtain ⟨t, hcall, hdec, -, hcell, haddr, -⟩ := hcalls ⟨reg.toNat, Nat.lt_succ_of_le hreg⟩ rfl hpc
  refine ⟨t, hcall, fun u hsp7 hkept => ?_⟩
  obtain ⟨hret, hempty⟩ := returnJumpsToTheTopOfStack u
  have hzero : u.reg 7 = 0#8 ↔ s.reg 7 = 1#8 := hsp7 ▸ eq_zero_iff_of_toNat_dec hdec
  refine ⟨fun hsp => ?_, fun hsp => hempty (hzero.mpr hsp)⟩
  obtain ⟨v, hx, hvpc, hinc, -⟩ := hret (hzero.not.mpr hsp)
  refine ⟨v, hx, ?_, eq_of_toNat_inc_dec hdec (hsp7 ▸ hinc)⟩
  rw [hvpc, hsp7, ← haddr, hkept, hcell]

end Sys2Proof.Machine
end

section
/-!
Fatal conditions (60_exceptions.md): what a step raises and when, and when a handler completes instead.
-/

namespace Sys2Proof.Machine

variable {s t : State} {i : Instr}

/-! ### The step's reports -/

/-- Settles O20: neither the step's report nor the run's end looks past the byte at the PC, so a memory with the same
byte there gives the same report. -/
theorem unknownOpcodeIsReported : Obligations.UnknownOpcodeIsReported := by
  unfold Obligations.UnknownOpcodeIsReported
  intro E s hr hpc hl
  have hstep := stepWith_of_no_entry hr hpc hl
  refine ⟨hstep, fun n => runWith_of_fault n hr hstep, fun m hm => ?_⟩
  have hbyte : State.opcodeByte { s with mem := m } = s.opcodeByte := hm
  have hl' : E.lookup (State.opcodeByte { s with mem := m }) = none := hbyte ▸ hl
  exact hbyte ▸ stepWith_of_no_entry (s := { s with mem := m }) hr hpc hl'

/-- Settles O22: the fetch unit's two reports, or the handler's (`legalReport_of_stepWith`). -/
theorem everyFaultIsALegalReport : Obligations.EveryFaultIsALegalReport := by
  unfold Obligations.EveryFaultIsALegalReport
  exact fun E s f hi hr h => legalReport_of_stepWith hi hr h

/-! ### The completion of a handler -/

/-- POP and RETURN that complete have passed the underflow test (R145(7)). -/
theorem Completes.sp_ne_zero (h : Completes s i t) (hps : i.op = .pop ∨ i.op = .ret) : s.sp ≠ 0#8 := by
  cases h
  case pop _ hsp | ret hsp => exact hsp
  all_goals simp [Instr.op] at hps

/-- CALL that completes has a cell to return to (R145(7)). -/
theorem Completes.pc_le_of_call (h : Completes s i t) (hcall : i.op = .call) : s.pc.toNat ≤ 253 := by
  cases h
  case call _ hpc => exact hpc
  all_goals cases hcall

/-- A well-formed instruction has no invalid register byte to report (R54). -/
theorem find?_invalidReg_eq_none (h : i.WF) : i.regOperands.find? (fun c => !validReg c) = none :=
  List.find?_eq_none.mpr fun c hc => by rw [List.all_eq_true.mp h c hc]; decide

/-- Settles O24: a completed handler has passed each of its tests, and one that does not complete raises
(`exec_ne_refused`), each report contradicting one of the conditions. -/
theorem handlerCompletesExactlyWhen : Obligations.HandlerCompletesExactlyWhen := by
  unfold Obligations.HandlerCompletesExactlyWhen
  intro i s
  constructor
  · rintro ⟨t, hx⟩
    have h := completes_iff.mpr hx
    exact ⟨h.wf, h.sp_ne_zero, h.pc_le_of_call⟩
  · rintro ⟨hwf, hsp, hpc⟩
    cases hx : exec i s with
    | next t => exact ⟨t, rfl⟩
    | refused r => exact absurd hx (exec_ne_refused i s r)
    | fault f =>
      obtain ⟨b, hb, -⟩ | ⟨-, hps, hzero, -⟩ | ⟨-, hcall, hend, -⟩ := exec_fault hx
      · exact nomatch (find?_invalidReg_eq_none hwf).symm.trans hb
      · exact absurd hzero (hsp hps)
      · exact absurd (hpc hcall) (Nat.not_le.mpr hend)

end Sys2Proof.Machine
end

section
/-!
Reset and load (70_reset_and_hazards.md): the state at the first fetch, and what the empty image makes of the run.
-/

namespace Sys2Proof.Machine

variable {image : List Byte}

/-! ### Reset, then load (R85(a), R170) -/

/-- An image that fits is written from address 0 into the reset memory, and nothing else is touched. -/
theorem boot_of_fits (h : image.length ≤ 256) :
    boot image = .ok { State.reset with mem := State.reset.mem.writeBytes 0 image } := if_neg (Nat.not_lt.mpr h)

/-- An image with more bytes than there are cells is refused (D16). -/
theorem boot_of_too_long (h : 256 < image.length) :
    boot image = .error (.outOfBounds .loadSize image.length 0) := if_pos h

/-- What the memory holds behind a load: the image from address 0, and `0x00` where the image has no byte. -/
theorem Memory.read_writeBytes_reset (h : image.length ≤ 256) (a : Nat) :
    (State.reset.mem.writeBytes 0 image).read a = image[a]?.getD 0#8 :=
  Memory.read_writeBytes image resetMeetsTheInvariant.1 (by omega) a

/-- Settles O8: the memory is the image over the zero cells of reset, and the other fields are those of reset. -/
theorem loadedImageIsTheMemory : Obligations.LoadedImageIsTheMemory := by
  unfold Obligations.LoadedImageIsTheMemory
  refine fun image => ⟨fun hfit => ?_, boot_of_too_long⟩
  obtain ⟨-, hreg, hpc, hrunning, hout⟩ := resetStateValues
  obtain ⟨hwf, hle⟩ := resetMeetsTheInvariant
  have hread := Memory.read_writeBytes_reset hfit
  refine ⟨_, boot_of_fits hfit, fun a ha => ?_, fun a ha => ?_, hreg, hpc, hrunning, hout,
    Memory.wf_writeBytes image hwf (by omega), hle⟩
  · exact (hread a).trans (by rw [List.getElem?_eq_getElem ha, Option.getD_some])
  · exact (hread a).trans (by rw [List.getElem?_eq_none ha, Option.getD_none])

/-! ### The empty image (R171) -/

/-- Settles O9: the cell at PC 0 is `0x00`, which no valid map has an entry for, and the code of `UnknownOpcode` is 1. -/
theorem emptyImageRaisesUnknownOpcode : Obligations.EmptyImageRaisesUnknownOpcode := by
  unfold Obligations.EmptyImageRaisesUnknownOpcode
  refine ⟨boot_of_fits (Nat.zero_le 256), fun E hE => ?_⟩
  have hno : E.lookup State.reset.opcodeByte = none := hE.lookup_zero
  have hstep : stepWith E State.reset = .fault (.unknownOpcode 0 0) := stepWith_of_no_entry rfl (Nat.zero_le 255) hno
  refine ⟨hstep, fun n => ?_⟩
  have hrun := runWith_of_fault n rfl hstep
  exact ⟨hrun, by rw [hrun]; rfl⟩

end Sys2Proof.Machine
end
